-- ==== Sys2Proof/Word.lean ====
section
/-! DEFINITION. The bit-vector types of the block: words, bytes, and the raw fields of an instruction word
(00_scope.md R6, R11). Addresses, targets, offsets and displacements are `Int`; stream indices are `Nat` (R7, R33). -/

namespace Sys2Proof

/-- One stream word, "an opaque 16-bit unit" (R6, R60). -/
abbrev Word := BitVec 16

/-- One byte of the input sequence (R63). -/
abbrev Byte := BitVec 8

/-- A register identity, 0 to 15 (R6, R32). -/
abbrev Reg := BitVec 4

/-- A one-bit field: the size flag `bw` (R85) or the destination mode bit `ad` (R84). -/
abbrev Bit := BitVec 1

end Sys2Proof
end

