-- ==== Sys2Proof/Config.lean ====
section
/-! DEFINITION. The parameters of a run (00_scope.md R6, 10_state.md R44). They are data of the state that no step
changes, so every statement holds for every value of them; the spec leaves no value of a step free, so there is no
free value here. -/

namespace Sys2Proof

/-- `MODE` (R6). -/
inductive TraversalMode where
  | linear | flow
  deriving DecidableEq, Repr

/-- `INVALID_POLICY` (R6, 92_eei_decisions.md D22). -/
inductive InvalidPolicy where
  | skip | halt
  deriving DecidableEq, Repr

/-- The parameters of R6: `QD`, `SD`, `NMAX` are the implementation's, `MODE` and `INVALID_POLICY` the host's. -/
structure Config where
  qd     : Nat
  sd     : Nat
  nmax   : Nat
  mode   : TraversalMode
  policy : InvalidPolicy
  deriving DecidableEq, Repr

/-- R6: `QD`, `SD` and `NMAX` are each at least 1. No operation asks for it: the spec does not say what a launch with
other parameters does, and the model runs it. DESIGN CHOICE, unsafe (log 17). -/
def Config.ok (c : Config) : Bool := 1 ≤ c.qd ∧ 1 ≤ c.sd ∧ 1 ≤ c.nmax

/-- The parameters of `State.reset`. `NMAX` and `INVALID_POLICY` are R6's defaults.
DESIGN CHOICE, unsafe: `QD = SD = 16` (OPEN in R6; log 5) and `MODE = FLOW` (no default in R6; log 4). -/
def Config.atReset : Config :=
  { qd := 16, sd := 16, nmax := 32768, mode := .flow, policy := .skip }

end Sys2Proof
end

