-- ==== Sys2Proof/Machine/Bits.lean ====
section
/-! DEFINITION. Bit fields, sign extension and byte order (00_scope.md R8, R10; 20_memory.md R63). -/

namespace Sys2Proof.Machine

/-- `w[lo+len-1 : lo]`, LSB0 (R8). -/
def field (w : Word) (lo len : Nat) : BitVec len := w.extractLsb' lo len

/-- `sext_10(v)`: the 10-bit value as a signed integer (R10, R98). -/
def sext10 (v : BitVec 10) : Int := v.toInt

/-- `zext_16(v)`: the 16-bit value as a non-negative integer (R10). -/
def zext16 (v : Word) : Int := (v.toNat : Int)

/-- R63: the lower-addressed byte is the low half of the word. -/
def wordOfBytes (lo hi : Byte) : Word := hi ++ lo

/-- The byte of a word that lies at its even address (R63). -/
def lowByte (w : Word) : Byte := w.extractLsb' 0 8

/-- The byte of a word that lies at the odd address after it (R63). -/
def highByte (w : Word) : Byte := w.extractLsb' 8 8

/-- The words of a byte sequence, two bytes a word, lower byte first (R63).
A byte left over at the end makes no word: the loader refuses such an input (R64, `launch`). -/
def wordsOfBytes : List Byte → List Word
  | lo :: hi :: rest => wordOfBytes lo hi :: wordsOfBytes rest
  | _ => []

end Sys2Proof.Machine
end

