-- ==== Sys2Proof/Syntax.lean ====
section
/-! DEFINITION. The instruction values of the block (30_encoding.md R89, R95, R101, R102; 44_pseudo.md R253, R254).
`Instr` is the tagged union of R102 with one constructor for each mnemonic of spec/opcode_table.json: a value of it is
what the decoder emits, what the normalizer and the recognizer map, and what an output record carries.
Rows of the table with one mnemonic are one value of the spec: `Invalid` carries no field (R112), and RLA from ADD and
from ADDC is the same `Pseudo` value (R247, R248). DEDUCED, safe (log 10). -/

namespace Sys2Proof

/-- The modes of R100: four real modes, ABSOLUTE, and the six constant aliases (R95).
Codes 11 to 15 are never produced, so no constructor stands for them (U17). -/
inductive Mode where
  | direct | indexed | indirect | autoinc | absolute
  | const0 | const1 | const2 | const4 | const8 | constNeg1
  deriving DecidableEq, Repr

/-- An operand (R101): `ext` is the extension word consumed for it; `cg` is the immediate the normalizer gave it. -/
structure Operand where
  reg  : Reg
  mode : Mode
  ext  : Option Word
  cg   : Option Int
  deriving DecidableEq, Repr

/-- The eight jump conditions (R86). The block evaluates none of them (R38). -/
inductive Cond where
  | ne | eq | lo | hs | n | ge | l | always
  deriving DecidableEq, Repr

/-- The seven single-operand opcodes (R87). -/
inductive SOp where
  | rrc | swpb | rra | sxt | push | call | reti
  deriving DecidableEq, Repr

/-- The twelve double-operand opcodes (R88). -/
inductive DOp where
  | mov | add | addc | subc | sub | cmp | dadd | bit | bic | bis | xor | and
  deriving DecidableEq, Repr

/-- The pseudo opcode space of R253, all 24 values.
RLC, INV, DECD, INCD, ADC, DADC and SBC are in the space and no row produces them (U18): no constructor of `Instr`
stands for one. -/
inductive POp where
  | nop | pop | br | ret | clrc | clrz | clrn | dint | setc | setz | setn | eint
  | rla | rlc | inv | clr | tst | dec | decd | inc | incd | adc | dadc | sbc
  deriving DecidableEq, Repr

/-- The instruction values (R102). -/
inductive Instr where
  /-- JNE, not-equal (R132): the signed word offset and the byte displacement (R98). -/
  | jne (off disp : Int)
  /-- JEQ, equal (R133): the signed word offset and the byte displacement (R98). -/
  | jeq (off disp : Int)
  /-- JLO, lower (R134): the signed word offset and the byte displacement (R98). -/
  | jlo (off disp : Int)
  /-- JHS, higher-or-same (R135): the signed word offset and the byte displacement (R98). -/
  | jhs (off disp : Int)
  /-- JN, negative (R136): the signed word offset and the byte displacement (R98). -/
  | jn (off disp : Int)
  /-- JGE, greater-or-equal (R137): the signed word offset and the byte displacement (R98). -/
  | jge (off disp : Int)
  /-- JL, less (R138): the signed word offset and the byte displacement (R98). -/
  | jl (off disp : Int)
  /-- JMP, unconditional (R139): the signed word offset and the byte displacement (R98). -/
  | jmp (off disp : Int)
  /-- RRC (R151). -/
  | rrc (bw : Bit) (opd : Operand)
  /-- SWPB (R152). -/
  | swpb (bw : Bit) (opd : Operand)
  /-- RRA (R153). -/
  | rra (bw : Bit) (opd : Operand)
  /-- SXT (R154). -/
  | sxt (bw : Bit) (opd : Operand)
  /-- PUSH (R155). -/
  | push (bw : Bit) (opd : Operand)
  /-- CALL (R156). -/
  | call (bw : Bit) (opd : Operand)
  /-- RETI (R157). -/
  | reti (bw : Bit) (opd : Operand)
  /-- MOV (R181). -/
  | mov (bw : Bit) (src dst : Operand)
  /-- ADD (R182). -/
  | add (bw : Bit) (src dst : Operand)
  /-- ADDC (R183). -/
  | addc (bw : Bit) (src dst : Operand)
  /-- SUBC (R184). -/
  | subc (bw : Bit) (src dst : Operand)
  /-- SUB (R185). -/
  | sub (bw : Bit) (src dst : Operand)
  /-- CMP (R186). -/
  | cmp (bw : Bit) (src dst : Operand)
  /-- DADD (R187). -/
  | dadd (bw : Bit) (src dst : Operand)
  /-- BIT (R188). -/
  | bit (bw : Bit) (src dst : Operand)
  /-- BIC (R189). -/
  | bic (bw : Bit) (src dst : Operand)
  /-- BIS (R190). -/
  | bis (bw : Bit) (src dst : Operand)
  /-- XOR (R191). -/
  | xor (bw : Bit) (src dst : Operand)
  /-- AND (R192). -/
  | and (bw : Bit) (src dst : Operand)
  /-- `Invalid` (R110, R112, R114, R193): an opcode field with no table entry; carries no field. -/
  | invalid
  /-- The idiom CLR (R234). -/
  | clr (bw : Bit) (dst : Operand)
  /-- The idiom NOP (R235). -/
  | nop (bw : Bit)
  /-- The idiom RET (R236). -/
  | ret (bw : Bit)
  /-- The idiom POP (R237). -/
  | pop (bw : Bit) (dst : Operand)
  /-- The idiom BR (R238). -/
  | br (bw : Bit) (src : Operand)
  /-- The idiom CLRC (R239). -/
  | clrc (bw : Bit)
  /-- The idiom CLRZ (R240). -/
  | clrz (bw : Bit)
  /-- The idiom CLRN (R241). -/
  | clrn (bw : Bit)
  /-- The idiom DINT (R242). -/
  | dint (bw : Bit)
  /-- The idiom SETC (R243). -/
  | setc (bw : Bit)
  /-- The idiom SETZ (R244). -/
  | setz (bw : Bit)
  /-- The idiom SETN (R245). -/
  | setn (bw : Bit)
  /-- The idiom EINT (R246). -/
  | eint (bw : Bit)
  /-- The idiom RLA (R247, R248). -/
  | rla (bw : Bit) (dst : Operand)
  /-- The idiom TST (R249). -/
  | tst (bw : Bit) (dst : Operand)
  /-- The idiom DEC (R250). -/
  | dec (bw : Bit) (dst : Operand)
  /-- The idiom INC (R251). -/
  | inc (bw : Bit) (dst : Operand)
  deriving DecidableEq, Repr

end Sys2Proof
end

