-- ==== Sys2Proof/Machine/Tables.lean ====
section
/-! DEFINITION. The opcode tables of 30_encoding.md (R86, R87, R88, R100) and 44_pseudo.md (R253), and the passage
between a constructor of `Instr` and its format with an opcode (R102). -/

namespace Sys2Proof.Machine

/-- The jump condition table (R86). -/
def condOf (c : BitVec 3) : Cond :=
  if c = 0 then .ne else if c = 1 then .eq else if c = 2 then .lo else if c = 3 then .hs
  else if c = 4 then .n else if c = 5 then .ge else if c = 6 then .l else .always

/-- The value of a condition in R86. -/
def condCode : Cond → BitVec 3
  | .ne => 0 | .eq => 1 | .lo => 2 | .hs => 3 | .n => 4 | .ge => 5 | .l => 6 | .always => 7

/-- The single-operand opcode table (R87); value 7 has no entry (R114). -/
def sopOf (c : BitVec 3) : Option SOp :=
  if c = 0 then some .rrc else if c = 1 then some .swpb else if c = 2 then some .rra else if c = 3 then some .sxt
  else if c = 4 then some .push else if c = 5 then some .call else if c = 6 then some .reti else none

/-- The value of a single-operand opcode in R87. -/
def sopCode : SOp → BitVec 3
  | .rrc => 0 | .swpb => 1 | .rra => 2 | .sxt => 3 | .push => 4 | .call => 5 | .reti => 6

/-- The double-operand opcode table (R88). Values 0 and 1 have no entry; 2 and 3 are never reached, since every such
word is a jump (R81), and have none either. -/
def dopOf (c : BitVec 4) : Option DOp :=
  if c = 4 then some .mov else if c = 5 then some .add else if c = 6 then some .addc else if c = 7 then some .subc
  else if c = 8 then some .sub else if c = 9 then some .cmp else if c = 10 then some .dadd else if c = 11 then some .bit
  else if c = 12 then some .bic else if c = 13 then some .bis else if c = 14 then some .xor
  else if c = 15 then some .and else none

/-- The value of a double-operand opcode in R88. -/
def dopCode : DOp → BitVec 4
  | .mov => 4 | .add => 5 | .addc => 6 | .subc => 7 | .sub => 8 | .cmp => 9
  | .dadd => 10 | .bit => 11 | .bic => 12 | .bis => 13 | .xor => 14 | .and => 15

/-- The mode codes of the output bus (R100). -/
def modeCode : Mode → BitVec 4
  | .direct => 0 | .indexed => 1 | .indirect => 2 | .autoinc => 3 | .absolute => 4
  | .const0 => 5 | .const1 => 6 | .const2 => 7 | .const4 => 8 | .const8 => 9 | .constNeg1 => 10

/-- The pseudo opcode codes (R253). -/
def popCode : POp → Nat
  | .nop => 0 | .pop => 1 | .br => 2 | .ret => 3 | .clrc => 4 | .clrz => 5 | .clrn => 6 | .dint => 7
  | .setc => 8 | .setz => 9 | .setn => 10 | .eint => 11 | .rla => 12 | .rlc => 13 | .inv => 14 | .clr => 15
  | .tst => 16 | .dec => 17 | .decd => 18 | .inc => 19 | .incd => 20 | .adc => 21 | .dadc => 22 | .sbc => 23

/-- `Jump{cond, off, disp}` (R102). -/
def mkJump (c : Cond) (off disp : Int) : Instr :=
  match c with
  | .ne => .jne off disp
  | .eq => .jeq off disp
  | .lo => .jlo off disp
  | .hs => .jhs off disp
  | .n => .jn off disp
  | .ge => .jge off disp
  | .l => .jl off disp
  | .always => .jmp off disp

/-- `Single{op, bw, opd}` (R102). -/
def mkSingle (op : SOp) (bw : Bit) (opd : Operand) : Instr :=
  match op with
  | .rrc => .rrc bw opd
  | .swpb => .swpb bw opd
  | .rra => .rra bw opd
  | .sxt => .sxt bw opd
  | .push => .push bw opd
  | .call => .call bw opd
  | .reti => .reti bw opd

/-- `Double{op, bw, src, dst}` (R102). -/
def mkDouble (op : DOp) (bw : Bit) (src dst : Operand) : Instr :=
  match op with
  | .mov => .mov bw src dst
  | .add => .add bw src dst
  | .addc => .addc bw src dst
  | .subc => .subc bw src dst
  | .sub => .sub bw src dst
  | .cmp => .cmp bw src dst
  | .dadd => .dadd bw src dst
  | .bit => .bit bw src dst
  | .bic => .bic bw src dst
  | .bis => .bis bw src dst
  | .xor => .xor bw src dst
  | .and => .and bw src dst

/-- The jump format read back: condition, offset, displacement. -/
def asJump : Instr → Option (Cond × Int × Int)
  | .jne off disp => some (.ne, off, disp)
  | .jeq off disp => some (.eq, off, disp)
  | .jlo off disp => some (.lo, off, disp)
  | .jhs off disp => some (.hs, off, disp)
  | .jn off disp => some (.n, off, disp)
  | .jge off disp => some (.ge, off, disp)
  | .jl off disp => some (.l, off, disp)
  | .jmp off disp => some (.always, off, disp)
  | .rrc _ _ => none
  | .swpb _ _ => none
  | .rra _ _ => none
  | .sxt _ _ => none
  | .push _ _ => none
  | .call _ _ => none
  | .reti _ _ => none
  | .mov _ _ _ => none
  | .add _ _ _ => none
  | .addc _ _ _ => none
  | .subc _ _ _ => none
  | .sub _ _ _ => none
  | .cmp _ _ _ => none
  | .dadd _ _ _ => none
  | .bit _ _ _ => none
  | .bic _ _ _ => none
  | .bis _ _ _ => none
  | .xor _ _ _ => none
  | .and _ _ _ => none
  | .invalid => none
  | .clr _ _ => none
  | .nop _ => none
  | .ret _ => none
  | .pop _ _ => none
  | .br _ _ => none
  | .clrc _ => none
  | .clrz _ => none
  | .clrn _ => none
  | .dint _ => none
  | .setc _ => none
  | .setz _ => none
  | .setn _ => none
  | .eint _ => none
  | .rla _ _ => none
  | .tst _ _ => none
  | .dec _ _ => none
  | .inc _ _ => none

/-- The single-operand format read back. -/
def asSingle : Instr → Option (SOp × Bit × Operand)
  | .jne _ _ => none
  | .jeq _ _ => none
  | .jlo _ _ => none
  | .jhs _ _ => none
  | .jn _ _ => none
  | .jge _ _ => none
  | .jl _ _ => none
  | .jmp _ _ => none
  | .rrc bw opd => some (.rrc, bw, opd)
  | .swpb bw opd => some (.swpb, bw, opd)
  | .rra bw opd => some (.rra, bw, opd)
  | .sxt bw opd => some (.sxt, bw, opd)
  | .push bw opd => some (.push, bw, opd)
  | .call bw opd => some (.call, bw, opd)
  | .reti bw opd => some (.reti, bw, opd)
  | .mov _ _ _ => none
  | .add _ _ _ => none
  | .addc _ _ _ => none
  | .subc _ _ _ => none
  | .sub _ _ _ => none
  | .cmp _ _ _ => none
  | .dadd _ _ _ => none
  | .bit _ _ _ => none
  | .bic _ _ _ => none
  | .bis _ _ _ => none
  | .xor _ _ _ => none
  | .and _ _ _ => none
  | .invalid => none
  | .clr _ _ => none
  | .nop _ => none
  | .ret _ => none
  | .pop _ _ => none
  | .br _ _ => none
  | .clrc _ => none
  | .clrz _ => none
  | .clrn _ => none
  | .dint _ => none
  | .setc _ => none
  | .setz _ => none
  | .setn _ => none
  | .eint _ => none
  | .rla _ _ => none
  | .tst _ _ => none
  | .dec _ _ => none
  | .inc _ _ => none

/-- The double-operand format read back. -/
def asDouble : Instr → Option (DOp × Bit × Operand × Operand)
  | .jne _ _ => none
  | .jeq _ _ => none
  | .jlo _ _ => none
  | .jhs _ _ => none
  | .jn _ _ => none
  | .jge _ _ => none
  | .jl _ _ => none
  | .jmp _ _ => none
  | .rrc _ _ => none
  | .swpb _ _ => none
  | .rra _ _ => none
  | .sxt _ _ => none
  | .push _ _ => none
  | .call _ _ => none
  | .reti _ _ => none
  | .mov bw src dst => some (.mov, bw, src, dst)
  | .add bw src dst => some (.add, bw, src, dst)
  | .addc bw src dst => some (.addc, bw, src, dst)
  | .subc bw src dst => some (.subc, bw, src, dst)
  | .sub bw src dst => some (.sub, bw, src, dst)
  | .cmp bw src dst => some (.cmp, bw, src, dst)
  | .dadd bw src dst => some (.dadd, bw, src, dst)
  | .bit bw src dst => some (.bit, bw, src, dst)
  | .bic bw src dst => some (.bic, bw, src, dst)
  | .bis bw src dst => some (.bis, bw, src, dst)
  | .xor bw src dst => some (.xor, bw, src, dst)
  | .and bw src dst => some (.and, bw, src, dst)
  | .invalid => none
  | .clr _ _ => none
  | .nop _ => none
  | .ret _ => none
  | .pop _ _ => none
  | .br _ _ => none
  | .clrc _ => none
  | .clrz _ => none
  | .clrn _ => none
  | .dint _ => none
  | .setc _ => none
  | .setz _ => none
  | .setn _ => none
  | .eint _ => none
  | .rla _ _ => none
  | .tst _ _ => none
  | .dec _ _ => none
  | .inc _ _ => none

/-- `Pseudo{pop, bw, opd}` read back (R102, R254): the idiom, its size flag and the operand it carries, if any. -/
def asPseudo : Instr → Option (POp × Bit × Option Operand)
  | .jne _ _ => none
  | .jeq _ _ => none
  | .jlo _ _ => none
  | .jhs _ _ => none
  | .jn _ _ => none
  | .jge _ _ => none
  | .jl _ _ => none
  | .jmp _ _ => none
  | .rrc _ _ => none
  | .swpb _ _ => none
  | .rra _ _ => none
  | .sxt _ _ => none
  | .push _ _ => none
  | .call _ _ => none
  | .reti _ _ => none
  | .mov _ _ _ => none
  | .add _ _ _ => none
  | .addc _ _ _ => none
  | .subc _ _ _ => none
  | .sub _ _ _ => none
  | .cmp _ _ _ => none
  | .dadd _ _ _ => none
  | .bit _ _ _ => none
  | .bic _ _ _ => none
  | .bis _ _ _ => none
  | .xor _ _ _ => none
  | .and _ _ _ => none
  | .invalid => none
  | .clr bw dst => some (.clr, bw, some dst)
  | .nop bw => some (.nop, bw, none)
  | .ret bw => some (.ret, bw, none)
  | .pop bw dst => some (.pop, bw, some dst)
  | .br bw src => some (.br, bw, some src)
  | .clrc bw => some (.clrc, bw, none)
  | .clrz bw => some (.clrz, bw, none)
  | .clrn bw => some (.clrn, bw, none)
  | .dint bw => some (.dint, bw, none)
  | .setc bw => some (.setc, bw, none)
  | .setz bw => some (.setz, bw, none)
  | .setn bw => some (.setn, bw, none)
  | .eint bw => some (.eint, bw, none)
  | .rla bw dst => some (.rla, bw, some dst)
  | .tst bw dst => some (.tst, bw, some dst)
  | .dec bw dst => some (.dec, bw, some dst)
  | .inc bw dst => some (.inc, bw, some dst)

end Sys2Proof.Machine
end

