-- ==== Sys2Proof/Machine/Operands.lean ====
section
/-! DEFINITION. Addressing modes and operand forms: the mode table (30_encoding.md R89 to R92), which operands take an
extension word (R93, R94), the constants and the immediate value (43_normalizer.md R211, R214), and the immediate
destination of CALL (45_flow_walker.md R276). -/

namespace Sys2Proof.Machine

/-- `ModeTable(r, m)` (R89): the SR table, the CG2 table, the ordinary table. -/
def modeTable (r : Reg) (m : BitVec 2) : Mode :=
  if r = 2 then
    if m = 0 then .direct else if m = 1 then .absolute else if m = 2 then .const4 else .const8
  else if r = 3 then
    if m = 0 then .const0 else if m = 1 then .const1 else if m = 2 then .const2 else .constNeg1
  else
    if m = 0 then .direct else if m = 1 then .indexed else if m = 2 then .indirect else .autoinc

/-- The raw mode bits that select a mode in each table of R89 that holds it. -/
def modeBits : Mode → BitVec 2
  | .direct => 0 | .const0 => 0
  | .indexed => 1 | .absolute => 1 | .const1 => 1
  | .indirect => 2 | .const4 => 2 | .const2 => 2
  | .autoinc => 3 | .const8 => 3 | .constNeg1 => 3

/-- The destination mode (R91): the one-bit `ad` zero-extended to a raw mode. -/
def destMode (r : Reg) (ad : Bit) : Mode := modeTable r ((0 : BitVec 1) ++ ad)

/-- Does a single-operand operand take an extension word (R94)? ABSOLUTE does not (R159). -/
def needsExtS (r : Reg) (m : Mode) : Bool :=
  m = .indexed ∨ (m = .autoinc ∧ r = 0)

/-- Does a double-operand operand take an extension word (R93)? -/
def needsExtD (r : Reg) (m : Mode) : Bool :=
  m = .indexed ∨ (m = .autoinc ∧ r = 0) ∨ m = .absolute

/-- The literal of a constant alias (R211), independent of `bw` (R216); `none` for the other modes. -/
def constValue : Mode → Option Int
  | .const0 => some 0 | .const1 => some 1 | .const2 => some 2
  | .const4 => some 4 | .const8 => some 8 | .constNeg1 => some (-1)
  | .direct => none | .indexed => none | .indirect => none | .autoinc => none | .absolute => none

/-- `ImmVal` (R214): the constant the normalizer gave, else the word of the `#imm` idiom, else none. -/
def immVal (o : Operand) : Option Int :=
  match o.cg with
  | some v => some v
  | none =>
    if o.mode = .autoinc ∧ o.reg = 0 then
      match o.ext with
      | some w => some (zext16 w)
      | none => none
    else none

/-- The extension word `D` of a CALL operand of the form `{0, AUTOINC, Some D, None}` (R276); `none` for every other
CALL form (R156, R282). The constant is tested to be absent, as R276 writes it. DEDUCED, safe (log 11). -/
def callDest (o : Operand) : Option Word :=
  if o.reg = 0 ∧ o.mode = .autoinc ∧ o.cg = none then o.ext else none

end Sys2Proof.Machine
end

