-- ==== Sys2Proof/Machine/Normalizer.lean ====
section
/-! DEFINITION. The addressing-mode normalizer (43_normalizer.md R210 to R213). -/

namespace Sys2Proof.Machine

/-- `NormSrc` (R211): a constant alias becomes `{0, AUTOINC, None, Some v}`; every other operand is unchanged
(R212, R213). -/
def normSrc (o : Operand) : Operand :=
  match constValue o.mode with
  | some v => { reg := 0, mode := .autoinc, ext := none, cg := some v }
  | none => o

/-- `Normalize` (R210): only the source operand of a double-operand instruction is rewritten. -/
def normalizeInstr (i : Instr) : Instr :=
  match asDouble i with
  | some (op, bw, src, dst) => mkDouble op bw (normSrc src) dst
  | none => i

end Sys2Proof.Machine
end

