-- ==== Sys2Proof/Machine/Recognizer.lean ====
section
/-! DEFINITION. The pseudo-instruction recognizer (44_pseudo.md R230 to R254): the rows of each opcode in their order,
first match wins (R232), and `Final` (R230). -/

namespace Sys2Proof.Machine

/-- "source = Program Counter, Indirect-Autoincrement, immediate k" (R233). -/
abbrev SrcImm (k : Int) (src : Operand) : Prop :=
  src.reg = 0 ∧ src.mode = .autoinc ∧ immVal src = some k

/-- "source = Stack Pointer, Indirect-Autoincrement" (R233). -/
abbrev SrcPop (src : Operand) : Prop :=
  src.reg = 1 ∧ src.mode = .autoinc

/-- MOV's rows: CLR, NOP, RET, POP, BR (R234 to R238). -/
def recognizeMov (bw : Bit) (src dst : Operand) : Option Instr :=
  if SrcImm 0 src then some (.clr bw dst)
  else if src.reg = dst.reg ∧ src.mode = .direct ∧ dst.mode = .direct then some (.nop bw)
  else if SrcPop src ∧ dst.reg = 0 then some (.ret bw)
  else if SrcPop src ∧ dst.reg ≠ 0 then some (.pop bw dst)
  else if dst.reg = 0 ∧ dst.mode = .direct then some (.br bw src)
  else none

/-- BIC's rows: CLRC, CLRZ, CLRN, DINT (R239 to R242). -/
def recognizeBic (bw : Bit) (src dst : Operand) : Option Instr :=
  if SrcImm 1 src ∧ dst.reg = 2 then some (.clrc bw)
  else if SrcImm 2 src ∧ dst.reg = 2 then some (.clrz bw)
  else if SrcImm 4 src ∧ dst.reg = 2 then some (.clrn bw)
  else if SrcImm 8 src ∧ dst.reg = 2 then some (.dint bw)
  else none

/-- BIS's rows: SETC, SETZ, SETN, EINT (R243 to R246). -/
def recognizeBis (bw : Bit) (src dst : Operand) : Option Instr :=
  if SrcImm 1 src ∧ dst.reg = 2 then some (.setc bw)
  else if SrcImm 2 src ∧ dst.reg = 2 then some (.setz bw)
  else if SrcImm 4 src ∧ dst.reg = 2 then some (.setn bw)
  else if SrcImm 8 src ∧ dst.reg = 2 then some (.eint bw)
  else none

/-- ADD's rows: RLA, then INC (R247, R251). -/
def recognizeAdd (bw : Bit) (src dst : Operand) : Option Instr :=
  if src.reg = dst.reg then some (.rla bw dst)
  else if SrcImm 1 src then some (.inc bw dst)
  else none

/-- ADDC's row: RLA (R248, 90_conflicts.md C8). -/
def recognizeAddc (bw : Bit) (src dst : Operand) : Option Instr :=
  if src.reg = dst.reg then some (.rla bw dst) else none

/-- CMP's row: TST (R249). -/
def recognizeCmp (bw : Bit) (src dst : Operand) : Option Instr :=
  if SrcImm 0 src then some (.tst bw dst) else none

/-- SUB's row: DEC (R250). -/
def recognizeSub (bw : Bit) (src dst : Operand) : Option Instr :=
  if SrcImm 1 src then some (.dec bw dst) else none

/-- `Recognize` (R230 to R232): only a double-operand instruction can match; SUBC, DADD, BIT, XOR and AND have no
row. -/
def recognize (i : Instr) : Option Instr :=
  match asDouble i with
  | some (.mov, bw, src, dst) => recognizeMov bw src dst
  | some (.bic, bw, src, dst) => recognizeBic bw src dst
  | some (.bis, bw, src, dst) => recognizeBis bw src dst
  | some (.add, bw, src, dst) => recognizeAdd bw src dst
  | some (.addc, bw, src, dst) => recognizeAddc bw src dst
  | some (.cmp, bw, src, dst) => recognizeCmp bw src dst
  | some (.sub, bw, src, dst) => recognizeSub bw src dst
  | some (.subc, _, _, _) => none
  | some (.dadd, _, _, _) => none
  | some (.bit, _, _, _) => none
  | some (.xor, _, _, _) => none
  | some (.and, _, _, _) => none
  | none => none

/-- `Final` (R230): the idiom where one matches, else the normalized instruction itself (R252). -/
def final (i : Instr) : Instr :=
  match recognize i with
  | some p => p
  | none => i

/-- A normalized constant source (R211). -/
def constSource (v : Int) : Operand := { reg := 0, mode := .autoinc, ext := none, cg := some v }

/-- An operand with no extension word and no constant. -/
def plainOperand (r : Reg) (m : Mode) : Operand := { reg := r, mode := m, ext := none, cg := none }

/-- One double-operand instruction that an idiom's row matches (R234 to R251), with the operand the idiom carries;
every other instruction is its own. The encoder writes an idiom as the words of this one: an idiom drops fields (R254),
so several words can read as it, and this picks one. DESIGN CHOICE, safe (log 15). -/
def base : Instr → Instr
  | .clr bw dst => .mov bw (constSource 0) dst
  | .nop bw => .mov bw (plainOperand 4 .direct) (plainOperand 4 .direct)
  | .ret bw => .mov bw (plainOperand 1 .autoinc) (plainOperand 0 .direct)
  | .pop bw dst => .mov bw (plainOperand 1 .autoinc) dst
  | .br bw src => .mov bw src (plainOperand 0 .direct)
  | .clrc bw => .bic bw (constSource 1) (plainOperand 2 .direct)
  | .clrz bw => .bic bw (constSource 2) (plainOperand 2 .direct)
  | .clrn bw => .bic bw (constSource 4) (plainOperand 2 .direct)
  | .dint bw => .bic bw (constSource 8) (plainOperand 2 .direct)
  | .setc bw => .bis bw (constSource 1) (plainOperand 2 .direct)
  | .setz bw => .bis bw (constSource 2) (plainOperand 2 .direct)
  | .setn bw => .bis bw (constSource 4) (plainOperand 2 .direct)
  | .eint bw => .bis bw (constSource 8) (plainOperand 2 .direct)
  | .rla bw dst => .add bw (plainOperand dst.reg .direct) dst
  | .tst bw dst => .cmp bw (constSource 0) dst
  | .dec bw dst => .sub bw (constSource 1) dst
  | .inc bw dst => .add bw (constSource 1) dst
  | .jne off disp => .jne off disp
  | .jeq off disp => .jeq off disp
  | .jlo off disp => .jlo off disp
  | .jhs off disp => .jhs off disp
  | .jn off disp => .jn off disp
  | .jge off disp => .jge off disp
  | .jl off disp => .jl off disp
  | .jmp off disp => .jmp off disp
  | .rrc bw opd => .rrc bw opd
  | .swpb bw opd => .swpb bw opd
  | .rra bw opd => .rra bw opd
  | .sxt bw opd => .sxt bw opd
  | .push bw opd => .push bw opd
  | .call bw opd => .call bw opd
  | .reti bw opd => .reti bw opd
  | .mov bw src dst => .mov bw src dst
  | .add bw src dst => .add bw src dst
  | .addc bw src dst => .addc bw src dst
  | .subc bw src dst => .subc bw src dst
  | .sub bw src dst => .sub bw src dst
  | .cmp bw src dst => .cmp bw src dst
  | .dadd bw src dst => .dadd bw src dst
  | .bit bw src dst => .bit bw src dst
  | .bic bw src dst => .bic bw src dst
  | .bis bw src dst => .bis bw src dst
  | .xor bw src dst => .xor bw src dst
  | .and bw src dst => .and bw src dst
  | .invalid => .invalid

end Sys2Proof.Machine
end

