-- ==== Sys2Proof/WellFormed.lean ====
section
/-! DEFINITION. Which terms of `Instr` are instructions of the block.
`Instr.decodedForm` holds of what the decoder emits (30_encoding.md R101 to R103);
`Instr.wellFormed` holds of what the walker acts on, after the normalizer and the recognizer (43_normalizer.md R215,
44_pseudo.md R230). -/

namespace Sys2Proof

open Machine

/-- A jump's fields (R98): a 10-bit signed offset, and the displacement of the Offset law. -/
def jumpFieldsOk (off disp : Int) : Bool :=
  -512 ≤ off ∧ off ≤ 511 ∧ disp = 2 * off + 2

/-- Some raw mode selects this mode for this register (R89). -/
def modeOk (o : Operand) : Bool :=
  modeTable o.reg (modeBits o.mode) = o.mode

/-- A single-operand operand (R94, R101, R158): an alias mode stays, and there is no constant. -/
def singleOperandOk (o : Operand) : Bool :=
  modeOk o ∧ o.ext.isSome = needsExtS o.reg o.mode ∧ o.cg = none

/-- A double-operand source as the decoder emits it (R90, R93, R101). -/
def sourceOk (o : Operand) : Bool :=
  modeOk o ∧ o.ext.isSome = needsExtD o.reg o.mode ∧ o.cg = none

/-- A double-operand destination (R91, R93, R194): its raw mode is one bit; it is never normalized (R210). -/
def destOk (o : Operand) : Bool :=
  modeOk o ∧ modeBits o.mode < 2 ∧ o.ext.isSome = needsExtD o.reg o.mode ∧ o.cg = none

/-- A double-operand source after the normalizer (R211, R215): an unchanged operand with no constant alias, or the
canonical form of one of the six constants. -/
def normalSourceOk (o : Operand) : Bool :=
  (sourceOk o ∧ constValue o.mode = none) ∨
  (o.reg = 0 ∧ o.mode = .autoinc ∧ o.ext = none ∧ o.cg ∈ [some 0, some 1, some 2, some 4, some 8, some (-1)])

/-- What the decoder emits: no idiom, no normalized constant. -/
def Instr.decodedForm (i : Instr) : Bool :=
  match asJump i with
  | some (_, off, disp) => jumpFieldsOk off disp
  | none =>
    match asSingle i with
    | some (_, _, o) => singleOperandOk o
    | none =>
      match asDouble i with
      | some (_, _, src, dst) => sourceOk src && destOk dst
      | none => i = .invalid

/-- What the walker acts on: a jump, a single-operand instruction or `Invalid` as decoded; otherwise a double-operand
instruction with a normalized source that no row matches, or an idiom that a row gives. -/
def Instr.wellFormed (i : Instr) : Bool :=
  match asJump i with
  | some (_, off, disp) => jumpFieldsOk off disp
  | none =>
    match asSingle i with
    | some (_, _, o) => singleOperandOk o
    | none =>
      match asDouble (base i) with
      | some (_, _, src, dst) => normalSourceOk src && destOk dst && final (base i) == i
      | none => i = .invalid

end Sys2Proof
end

