-- ==== Sys2Proof/Decode.lean ====
section
/-! DEFINITION. The decoder (30_encoding.md R80 to R105), the pipeline decode, normalize, recognize
(45_flow_walker.md R270), and after it the encoder, written from the same format tables (R82, R83, R84). -/

namespace Sys2Proof

open Machine

/-- The three flavors (R81). -/
inductive Flavor where
  | jump | single | double
  deriving DecidableEq, Repr

/-- What the decoder answers (R103): an instruction with its length, or `Trunc(need)` (R104). -/
inductive Decoded where
  | ok    (i : Instr) (len : Nat)
  | trunc (need : Nat)
  deriving DecidableEq, Repr

/-- Flavor classification, in the order of R81. -/
def flavor (w : Word) : Flavor :=
  if field w 10 6 = 0b000100 then .single
  else if field w 13 3 = 0b001 then .jump
  else .double

/-- The length of an instruction from its first word alone (R97). -/
def instrLength (w0 : Word) : Nat :=
  match flavor w0 with
  | .jump => 1
  | .single =>
    match sopOf (field w0 7 3) with
    | none => 1
    | some _ => 1 + (needsExtS (field w0 0 4) (modeTable (field w0 0 4) (field w0 4 2))).toNat
  | .double =>
    match dopOf (field w0 12 4) with
    | none => 1
    | some _ =>
      1 + (needsExtD (field w0 8 4) (modeTable (field w0 8 4) (field w0 4 2))).toNat
        + (needsExtD (field w0 0 4) (destMode (field w0 0 4) (field w0 7 1))).toNat

/-- Decode of a jump word (R98, R130). -/
def decodeJump (w0 : Word) : Decoded :=
  .ok (mkJump (condOf (field w0 10 3)) (sext10 (field w0 0 10)) (2 * sext10 (field w0 0 10) + 2)) 1

/-- Decode of a single-operand word (R103, R150); `exts` are the stream words after `w0`. -/
def decodeSingle (w0 : Word) (exts : List Word) : Decoded :=
  match sopOf (field w0 7 3) with
  | none => .ok .invalid 1
  | some op =>
    let r := field w0 0 4
    let m := modeTable r (field w0 4 2)
    if needsExtS r m then
      match exts with
      | w1 :: _ => .ok (mkSingle op (field w0 6 1) { reg := r, mode := m, ext := some w1, cg := none }) 2
      | [] => .trunc 2
    else .ok (mkSingle op (field w0 6 1) { reg := r, mode := m, ext := none, cg := none }) 1

/-- Decode of a double-operand word (R103, R180); the source's extension word comes first (R96). -/
def decodeDouble (w0 : Word) (exts : List Word) : Decoded :=
  match dopOf (field w0 12 4) with
  | none => .ok .invalid 1
  | some op =>
    let s := field w0 8 4
    let sm := modeTable s (field w0 4 2)
    let d := field w0 0 4
    let dm := destMode d (field w0 7 1)
    let bw := field w0 6 1
    match needsExtD s sm, needsExtD d dm, exts with
    | false, false, _ => .ok (mkDouble op bw ⟨s, sm, none, none⟩ ⟨d, dm, none, none⟩) 1
    | true, false, w1 :: _ => .ok (mkDouble op bw ⟨s, sm, some w1, none⟩ ⟨d, dm, none, none⟩) 2
    | false, true, w1 :: _ => .ok (mkDouble op bw ⟨s, sm, none, none⟩ ⟨d, dm, some w1, none⟩) 2
    | true, true, w1 :: w2 :: _ => .ok (mkDouble op bw ⟨s, sm, some w1, none⟩ ⟨d, dm, some w2, none⟩) 3
    | true, true, _ => .trunc 3
    | true, false, [] => .trunc 2
    | false, true, [] => .trunc 2

/-- `Decode` (R103): total on every first word and every list of the words that follow it in the stream.
`avail` of R103 is `1 + exts.length`; no extension word is invented (R104). -/
def decode (w0 : Word) (exts : List Word) : Decoded :=
  match flavor w0 with
  | .jump => decodeJump w0
  | .single => decodeSingle w0 exts
  | .double => decodeDouble w0 exts

/-- Decode, normalize, recognize (R270): `fin` of the pipeline with the decoder's length. -/
def resolve (w0 : Word) (exts : List Word) : Decoded :=
  match decode w0 exts with
  | .ok d len => .ok (final (normalizeInstr d)) len
  | .trunc need => .trunc need

/-- The pipeline on bytes, little-endian (R63); `none` where no whole word is there. -/
def resolveBytes (bs : List Byte) : Option Decoded :=
  match wordsOfBytes bs with
  | w0 :: exts => some (resolve w0 exts)
  | [] => none

/-! ## The encoder -/

/-- A jump word (R82). -/
def jumpWord (c : Cond) (off : Int) : Word :=
  (0b001 : BitVec 3) ++ condCode c ++ BitVec.ofInt 10 off

/-- The first word of a single-operand instruction (R83). -/
def singleWord (op : SOp) (bw : Bit) (o : Operand) : Word :=
  (0b000100 : BitVec 6) ++ sopCode op ++ bw ++ modeBits o.mode ++ o.reg

/-- The constant-generator register that gives a constant (R89, R211). -/
def constReg (v : Int) : Reg := if v = 4 ∨ v = 8 then 2 else 3

/-- The raw mode that gives a constant (R89, R211). -/
def constBits (v : Int) : BitVec 2 :=
  if v = 0 then 0 else if v = 1 then 1 else if v = 2 ∨ v = 4 then 2 else 3

/-- The source register field: a normalized constant goes back to its constant-generator register. -/
def sourceReg (o : Operand) : Reg :=
  match o.cg with
  | some v => constReg v
  | none => o.reg

/-- The source mode field: a normalized constant goes back to its raw mode. -/
def sourceBits (o : Operand) : BitVec 2 :=
  match o.cg with
  | some v => constBits v
  | none => modeBits o.mode

/-- The first word of a double-operand instruction (R84). -/
def doubleWord (op : DOp) (bw : Bit) (src dst : Operand) : Word :=
  dopCode op ++ sourceReg src ++ (modeBits dst.mode).setWidth 1 ++ bw ++ sourceBits src ++ dst.reg

/-- The words of a well-formed instruction, in stream order: the first word, then the source's and the destination's
extension words (R96). An idiom is written as its `base`; `Invalid` as the word 0x0000 (R110). -/
def encode (i : Instr) : List Word :=
  match asJump i with
  | some (c, off, _) => [jumpWord c off]
  | none =>
    match asSingle i with
    | some (op, bw, o) => singleWord op bw o :: o.ext.toList
    | none =>
      match asDouble (base i) with
      | some (op, bw, src, dst) => doubleWord op bw src dst :: (src.ext.toList ++ dst.ext.toList)
      | none => [0]

/-- An encoded instruction read back through a decoder of first word and following words. -/
def readBack (d : Word → List Word → Decoded) (i : Instr) : Option Decoded :=
  match encode i with
  | w0 :: exts => some (d w0 exts)
  | [] => none

/-! ## The host's question about one word -/

/-- The bytes of a table word: `nbits` bits of `w`, zero above, as three words laid out little-endian (R63). -/
def tableBytes (nbits w : Nat) : List Byte :=
  let v := w % 2 ^ nbits
  [BitVec.ofNat 8 v, BitVec.ofNat 8 (v / 2 ^ 8), BitVec.ofNat 8 (v / 2 ^ 16), BitVec.ofNat 8 (v / 2 ^ 24),
    BitVec.ofNat 8 (v / 2 ^ 32), BitVec.ofNat 8 (v / 2 ^ 40)]

/-- The instruction the pipeline reads from a table word: the value the walker acts on. -/
def decodeTableWord (nbits w : Nat) : Option Instr :=
  match resolveBytes (tableBytes nbits w) with
  | some (.ok i _) => some i
  | some (.trunc _) => none
  | none => none

end Sys2Proof
end

