-- ==== Sys2Proof/Machine/State.lean ====
section
/-! DEFINITION. The walker's state as plain data (10_state.md R31 to R46, 20_memory.md R60), the reasons a step can
stop, and the state right after reset (70_reset_and_hazards.md R340). -/

namespace Sys2Proof.Machine

/-- `STATUS` (R39). Codes 5 to 7 are reserved and never produced, so no constructor stands for them (U16). -/
inductive Status where
  | run | endOfStream | exhausted | stoppedInvalid | fault
  deriving DecidableEq, Repr

/-- `CAUSE` (R40, R311). Codes 6 and 7 are reserved and never produced (U16). -/
inductive Cause where
  | none | truncated | badTarget | queueOverflow | stackOverflow | malformedLength
  deriving DecidableEq, Repr

/-- An output record `(start, len, words, instr)` and nothing else (R45). -/
structure Record where
  start : Int
  len   : Nat
  words : List Word
  instr : Instr
  deriving DecidableEq, Repr

/-- The state of a run: the walker's tuple of R31, the word memory, the configuration inputs (R44) and the records
emitted so far (R45). -/
structure State where
  /-- The parameters of the run (R6, R44). No step changes them. -/
  cfg       : Config
  /-- `N`, the number of loaded words (R6, R44). No step changes it. -/
  n         : Nat
  /-- `W[1..N]` as bytes: byte address `a` of R61 with its byte, addresses strictly rising, no byte equal to
  `unlistedByte` (log 1). No step changes it (R62). -/
  mem       : List Host.Cell
  /-- `W[0]`, unspecified and never read (R46, R47; log 3). -/
  sentinel  : Word
  /-- The cursor: the stream index of the next instruction's first word (R33). -/
  idx       : Nat
  /-- `WU`: the words the current instruction consumed, in stream order (R36). -/
  wu        : List Word
  /-- `STATUS` (R39). -/
  status    : Status
  /-- `CAUSE` (R40). -/
  cause     : Cause
  /-- `FAULT_ADDR` (R40). -/
  faultAddr : Int
  /-- `FAULT_INFO` (R40). -/
  faultInfo : Int
  /-- `VIS`: the indices whose bit is 1, strictly rising (R43; log 12). -/
  vis       : List Nat
  /-- `BQ`, head dequeued first (R41). -/
  bq        : List Int
  /-- `CS`, head on top (R42). -/
  cs        : List Int
  /-- The output records, first emitted first (R45; log 9). -/
  records   : List Record
  deriving DecidableEq, Repr

/-- Why the model itself stops. The block's own faults are states with `STATUS = FAULT` (R312), not these. -/
inductive Fault where
  /-- Raised by `step` alone, when the cursor names neither a loaded word nor the end marker, so that the step would
  read a word outside `W[1..N]` (R47, U7). No run reaches such a state. Safe (log 8). -/
  | wordOutOfRange (idx : Nat)
  deriving DecidableEq, Repr

/-- What the model gives no meaning. -/
inductive Refusal where
  /-- Raised by an arm of `exec` for an instruction with no meaning yet: by none here. Safe. -/
  | notModelled (mnemonic : String)
  /-- Raised by `launch` alone, for an input longer than the word memory: outside the block's domain, and "a model
  refuses such a launch" (R341, U5). Safe. -/
  | streamTooLong
  deriving DecidableEq, Repr

/-- What a byte address inside the stream reads as when `mem` does not list it: the zero byte. It is how a loaded zero
byte is written down, never a byte in place of one that was not loaded. DESIGN CHOICE, unsafe (log 1). -/
def unlistedByte : Byte := 0

/-- Every state element at its reset value (R46, R340), for a run with these parameters and nothing loaded.
The sentinel's 0 is a DESIGN CHOICE, unsafe (log 3). -/
def State.resetWith (cfg : Config) : State :=
  { cfg := cfg, n := 0, mem := [], sentinel := 0, idx := 1, wu := [], status := .run, cause := .none,
    faultAddr := 0, faultInfo := 0, vis := [], bq := [], cs := [], records := [] }

/-- The machine right after reset with an empty input, `L = 0` (R340; log 6). -/
def State.reset : State := State.resetWith Config.atReset

end Sys2Proof.Machine
end

