-- ==== Sys2Proof/Machine/Ops.lean ====
section
/-! DEFINITION. The named operations over memory, cursor, fault record and the three reachability memories
(10_state.md R33 to R47; 45_flow_walker.md R271 to R288; 60_exceptions.md R312), and the shape every instruction's
meaning has (R270). -/

namespace Sys2Proof.Machine

/-! ## Word memory -/

/-- The byte at an address. -/
def readByte : List Host.Cell → Nat → Byte
  | [], _ => unlistedByte
  | (b, v) :: m, a => if b = a then v else readByte m a

/-- Put a byte at an address, keeping addresses strictly rising and listing no `unlistedByte`. -/
def writeByte : List Host.Cell → Nat → Byte → List Host.Cell
  | [], a, v => if v = unlistedByte then [] else [(a, v)]
  | (b, u) :: m, a, v =>
    if a < b then (if v = unlistedByte then (b, u) :: m else (a, v) :: (b, u) :: m)
    else if a = b then (if v = unlistedByte then m else (a, v) :: m)
    else (b, u) :: writeByte m a v

/-- Put bytes at consecutive addresses from `a`. -/
def writeBytes : List Host.Cell → Nat → List Byte → List Host.Cell
  | m, _, [] => m
  | m, a, v :: vs => writeBytes (writeByte m a v) (a + 1) vs

/-- The canonical form of memory: addresses strictly rising, no entry equal to what an unlisted address reads as. -/
abbrev Memory.wf (m : List Host.Cell) : Prop :=
  m.Pairwise (fun x y => x.1 < y.1) ∧ ∀ c ∈ m, c.2 ≠ unlistedByte

/-- `W[i]` (R10, R47, R60, R63): the little-endian word at byte addresses `2(i-1)` and `2(i-1)+1`; nothing outside
`1 ≤ i ≤ N`. -/
def readWord (s : State) (i : Nat) : Option Word :=
  if 1 ≤ i ∧ i ≤ s.n then
    some (wordOfBytes (readByte s.mem (2 * (i - 1))) (readByte s.mem (2 * (i - 1) + 1)))
  else none

/-! ## Addresses and indices -/

/-- `addr(i) = 2(i - 1)` (R34). -/
def addr (i : Nat) : Int := 2 * ((i : Int) - 1)

/-- `index(a) = a/2 + 1` (R34). -/
def index (a : Int) : Nat := (a / 2 + 1).toNat

/-- `MemRead(a, 2)` (R10): the word at an even byte address of the stream; an odd address, a negative one and one above
`2(N-1)` name no word (R61). -/
def memRead (s : State) (a : Int) : Option Word :=
  if a % 2 = 0 ∧ 0 ≤ a ∧ a ≤ 2 * ((s.n : Int) - 1) then readWord s (index a) else none

/-! ## Fetch -/

/-- The words from the cursor on, at most three (R65, R103: `avail = min(3, N + 1 - idx)`); nothing where the cursor
names no word. -/
def fetchWindow (s : State) : Option (Word × List Word) :=
  match readWord s s.idx with
  | none => none
  | some w0 =>
    match readWord s (s.idx + 1) with
    | none => some (w0, [])
    | some w1 =>
      match readWord s (s.idx + 2) with
      | none => some (w0, [w1])
      | some w2 => some (w0, [w1, w2])

/-- `WU <- [W[idx], …, W[idx+len-1]]` (R36, R272), from the words of the window. -/
def consume (words : List Word) (s : State) : State := { s with wu := words }

/-! ## State updates -/

/-- Emit the output record `(start, len, WU, fin)` (R45, R272). -/
def emit (fin : Instr) (s : State) : State :=
  { s with records := s.records ++ [{ start := addr s.idx, len := s.wu.length, words := s.wu, instr := fin }] }

/-- Set the bit of an index in the visited set, keeping the list strictly rising (R43). -/
def visInsert (i : Nat) : List Nat → List Nat
  | [] => [i]
  | j :: r => if i < j then i :: j :: r else if i = j then j :: r else j :: visInsert i r

/-- `VIS[idx] <- 1` (R274). -/
def markVisited (s : State) : State := { s with vis := visInsert s.idx s.vis }

/-- Fault entry, `raise C(info)` (R312): the ONE way into `STATUS = FAULT` from a step. `idx` is still the index the
step started at, so `FAULT_ADDR` is the start address of the instruction. -/
def raiseFault (c : Cause) (info : Int) (s : State) : State :=
  { s with status := .fault, cause := c, faultAddr := addr s.idx, faultInfo := info }

/-- Enter a terminal state that is no fault (R271, R279, R281). -/
def stop (st : Status) (s : State) : State := { s with status := st }

/-- `idx <- i` (R10). -/
def moveTo (i : Nat) (s : State) : State := { s with idx := i }

/-- Replace the branch queue (R41). -/
def setQueue (q : List Int) (s : State) : State := { s with bq := q }

/-- Replace the call stack (R42). -/
def setStack (c : List Int) (s : State) : State := { s with cs := c }

/-! ## Flow actions -/

/-- `idx <- idx + len` (R282), `len` the number of words in `WU` (log 13). -/
def advance (s : State) : State := moveTo (s.idx + s.wu.length) s

/-- `resume(t)` (R280): a checked move of the cursor to address `t`. -/
def resume (t : Int) (s : State) : State :=
  if t % 2 ≠ 0 ∨ t < 0 ∨ t > 2 * (s.n : Int) then raiseFault .badTarget t s
  else moveTo (index t) s

/-- `JumpAct(t)` (R275, R283). -/
def jumpAct (t : Int) (s : State) : State :=
  if s.bq.length = s.cfg.qd then raiseFault .queueOverflow t s
  else moveTo (s.idx + 1) (setQueue (s.bq ++ [t]) s)

/-- `CallAct(ret, t)` (R276, R284). -/
def callAct (ret t : Int) (s : State) : State :=
  if s.cs.length = s.cfg.sd then raiseFault .stackOverflow ret s
  else resume t (setStack (ret :: s.cs) s)

/-- `Visited(c)` (R277). -/
def visited (s : State) (c : Int) : Bool :=
  c % 2 = 0 ∧ 0 ≤ c ∧ c ≤ 2 * (s.n : Int) - 2 ∧ index c ∈ s.vis

/-- The drain of R277: dequeue until a candidate is not visited; that candidate and the queue behind it, or nothing
when the queue runs empty (R285). -/
def drain (seen : Int → Bool) : List Int → Option (Int × List Int)
  | [] => none
  | c :: rest => if seen c then drain seen rest else some (c, rest)

/-- `RetFallback()` (R278, R279). -/
def retFallback (s : State) : State :=
  match s.cs with
  | r :: rest => resume r (setStack rest s)
  | [] => stop .exhausted s

/-- `RetAct()` (R277). -/
def retAct (s : State) : State :=
  match drain (visited s) s.bq with
  | some (c, rest) => resume c (setQueue rest s)
  | none => retFallback (setQueue [] s)

/-- `InvalidAct()` (R281). -/
def invalidAct (s : State) : State :=
  match s.cfg.policy with
  | .halt => stop .stoppedInvalid s
  | .skip => moveTo (s.idx + 1) s

/-- The jump case of R270 and R275: the target is `start + disp` (R131). -/
def jumpFlow (disp : Int) (s : State) : State := jumpAct (addr s.idx + disp) s

/-- The CALL case of R270: an immediate destination is followed (R276), every other form stepped over (R282).
The return address is `start + 2*len`. -/
def callFlow (opd : Operand) (s : State) : State :=
  match callDest opd with
  | some d => callAct (addr s.idx + 2 * (s.wu.length : Int)) (zext16 d) s
  | none => advance s

/-- `LinearAct(fin, len)` (R273). -/
def linearAct (fin : Instr) (s : State) : State :=
  if fin = .invalid ∧ s.cfg.policy = .halt then stop .stoppedInvalid s else advance s

/-- What every decoded instruction does once its words are consumed (R270): emit the record, then in `LINEAR` mode
advance, and in `FLOW` mode mark the start visited and take the instruction's flow action. -/
def retire (fin : Instr) (act : State → State) (s : State) : State :=
  match s.cfg.mode with
  | .linear => linearAct fin (emit fin s)
  | .flow => act (markVisited (emit fin s))

/-! ## One decode at the cursor -/

/-- What the step finds at the cursor. -/
inductive Fetched where
  | outside                                  -- the cursor names no loaded word (R47)
  | truncated (need : Nat)                   -- `Trunc(need)` (R104)
  | instr (fin : Instr) (words : List Word)  -- `fin` and the words it consumed (R272)
  deriving DecidableEq, Repr

/-- Decode, normalize and recognize at the cursor (R270). -/
def fetch (s : State) : Fetched :=
  match fetchWindow s with
  | none => .outside
  | some (w0, exts) =>
    match resolve w0 exts with
    | .trunc need => .truncated need
    | .ok fin len => .instr fin ((w0 :: exts).take len)

/-- Is the cursor at the end marker, index `N + 1` (R271)? -/
def atEnd (s : State) : Bool := s.idx = s.n + 1

end Sys2Proof.Machine
end

