-- ==== Sys2Proof/Machine/DoubleOperand.lean ====
section
/-! DEFINITION. The meanings of the twelve double-operand instructions that matched no idiom (42_double_operand.md R180 to
R196; 45_flow_walker.md R282): emitted and stepped over. -/

namespace Sys2Proof.Machine

/-- MOV (R181, R282). -/
def execMov (bw : Bit) (src dst : Operand) (s : State) : Host.Outcome State Fault Refusal :=
  .next (retire (.mov bw src dst) advance s)

/-- ADD (R182, R282). -/
def execAdd (bw : Bit) (src dst : Operand) (s : State) : Host.Outcome State Fault Refusal :=
  .next (retire (.add bw src dst) advance s)

/-- ADDC (R183, R282). -/
def execAddc (bw : Bit) (src dst : Operand) (s : State) : Host.Outcome State Fault Refusal :=
  .next (retire (.addc bw src dst) advance s)

/-- SUBC (R184, R282). -/
def execSubc (bw : Bit) (src dst : Operand) (s : State) : Host.Outcome State Fault Refusal :=
  .next (retire (.subc bw src dst) advance s)

/-- SUB (R185, R282). -/
def execSub (bw : Bit) (src dst : Operand) (s : State) : Host.Outcome State Fault Refusal :=
  .next (retire (.sub bw src dst) advance s)

/-- CMP (R186, R282). -/
def execCmp (bw : Bit) (src dst : Operand) (s : State) : Host.Outcome State Fault Refusal :=
  .next (retire (.cmp bw src dst) advance s)

/-- DADD (R187, R282). -/
def execDadd (bw : Bit) (src dst : Operand) (s : State) : Host.Outcome State Fault Refusal :=
  .next (retire (.dadd bw src dst) advance s)

/-- BIT (R188, R282). -/
def execBit (bw : Bit) (src dst : Operand) (s : State) : Host.Outcome State Fault Refusal :=
  .next (retire (.bit bw src dst) advance s)

/-- BIC (R189, R282). -/
def execBic (bw : Bit) (src dst : Operand) (s : State) : Host.Outcome State Fault Refusal :=
  .next (retire (.bic bw src dst) advance s)

/-- BIS (R190, R282). -/
def execBis (bw : Bit) (src dst : Operand) (s : State) : Host.Outcome State Fault Refusal :=
  .next (retire (.bis bw src dst) advance s)

/-- XOR (R191, R282). -/
def execXor (bw : Bit) (src dst : Operand) (s : State) : Host.Outcome State Fault Refusal :=
  .next (retire (.xor bw src dst) advance s)

/-- AND (R192, R282). -/
def execAnd (bw : Bit) (src dst : Operand) (s : State) : Host.Outcome State Fault Refusal :=
  .next (retire (.and bw src dst) advance s)

end Sys2Proof.Machine
end

