-- ==== Sys2Proof/Machine/Jumps.lean ====
section
/-! DEFINITION. The meanings of the eight jumps (40_jumps.md R130 to R140; 45_flow_walker.md R275): no condition is
evaluated (R38), the target is enqueued and the walk goes on at the next word. -/

namespace Sys2Proof.Machine

/-- JNE (R132, R275). -/
def execJne (off disp : Int) (s : State) : Host.Outcome State Fault Refusal :=
  .next (retire (.jne off disp) (jumpFlow disp) s)

/-- JEQ (R133, R275). -/
def execJeq (off disp : Int) (s : State) : Host.Outcome State Fault Refusal :=
  .next (retire (.jeq off disp) (jumpFlow disp) s)

/-- JLO (R134, R275). -/
def execJlo (off disp : Int) (s : State) : Host.Outcome State Fault Refusal :=
  .next (retire (.jlo off disp) (jumpFlow disp) s)

/-- JHS (R135, R275). -/
def execJhs (off disp : Int) (s : State) : Host.Outcome State Fault Refusal :=
  .next (retire (.jhs off disp) (jumpFlow disp) s)

/-- JN (R136, R275). -/
def execJn (off disp : Int) (s : State) : Host.Outcome State Fault Refusal :=
  .next (retire (.jn off disp) (jumpFlow disp) s)

/-- JGE (R137, R275). -/
def execJge (off disp : Int) (s : State) : Host.Outcome State Fault Refusal :=
  .next (retire (.jge off disp) (jumpFlow disp) s)

/-- JL (R138, R275). -/
def execJl (off disp : Int) (s : State) : Host.Outcome State Fault Refusal :=
  .next (retire (.jl off disp) (jumpFlow disp) s)

/-- JMP (R139, R275). -/
def execJmp (off disp : Int) (s : State) : Host.Outcome State Fault Refusal :=
  .next (retire (.jmp off disp) (jumpFlow disp) s)

end Sys2Proof.Machine
end

