-- ==== Sys2Proof/Machine/Pseudo.lean ====
section
/-! DEFINITION. The meanings of `Invalid` (30_encoding.md R110 to R114; 45_flow_walker.md R281) and of the seventeen idioms
(44_pseudo.md R234 to R251): only RET acts on the flow state (R277 to R279); every other idiom, BR included, is emitted
and stepped over (R282, R287). -/

namespace Sys2Proof.Machine

/-- `Invalid` (R281, R314): a value, not a fault. -/
def execInvalid (s : State) : Host.Outcome State Fault Refusal :=
  .next (retire .invalid invalidAct s)

/-- CLR (R234, R282). -/
def execClr (bw : Bit) (dst : Operand) (s : State) : Host.Outcome State Fault Refusal :=
  .next (retire (.clr bw dst) advance s)

/-- NOP (R235, R282). -/
def execNop (bw : Bit) (s : State) : Host.Outcome State Fault Refusal :=
  .next (retire (.nop bw) advance s)

/-- RET (R236, R277 to R279). -/
def execRet (bw : Bit) (s : State) : Host.Outcome State Fault Refusal :=
  .next (retire (.ret bw) retAct s)

/-- POP (R237, R282). -/
def execPop (bw : Bit) (dst : Operand) (s : State) : Host.Outcome State Fault Refusal :=
  .next (retire (.pop bw dst) advance s)

/-- BR (R238, R282). -/
def execBr (bw : Bit) (src : Operand) (s : State) : Host.Outcome State Fault Refusal :=
  .next (retire (.br bw src) advance s)

/-- CLRC (R239, R282). -/
def execClrc (bw : Bit) (s : State) : Host.Outcome State Fault Refusal :=
  .next (retire (.clrc bw) advance s)

/-- CLRZ (R240, R282). -/
def execClrz (bw : Bit) (s : State) : Host.Outcome State Fault Refusal :=
  .next (retire (.clrz bw) advance s)

/-- CLRN (R241, R282). -/
def execClrn (bw : Bit) (s : State) : Host.Outcome State Fault Refusal :=
  .next (retire (.clrn bw) advance s)

/-- DINT (R242, R282). -/
def execDint (bw : Bit) (s : State) : Host.Outcome State Fault Refusal :=
  .next (retire (.dint bw) advance s)

/-- SETC (R243, R282). -/
def execSetc (bw : Bit) (s : State) : Host.Outcome State Fault Refusal :=
  .next (retire (.setc bw) advance s)

/-- SETZ (R244, R282). -/
def execSetz (bw : Bit) (s : State) : Host.Outcome State Fault Refusal :=
  .next (retire (.setz bw) advance s)

/-- SETN (R245, R282). -/
def execSetn (bw : Bit) (s : State) : Host.Outcome State Fault Refusal :=
  .next (retire (.setn bw) advance s)

/-- EINT (R246, R282). -/
def execEint (bw : Bit) (s : State) : Host.Outcome State Fault Refusal :=
  .next (retire (.eint bw) advance s)

/-- RLA (R247, R248, R282). -/
def execRla (bw : Bit) (dst : Operand) (s : State) : Host.Outcome State Fault Refusal :=
  .next (retire (.rla bw dst) advance s)

/-- TST (R249, R282). -/
def execTst (bw : Bit) (dst : Operand) (s : State) : Host.Outcome State Fault Refusal :=
  .next (retire (.tst bw dst) advance s)

/-- DEC (R250, R282). -/
def execDec (bw : Bit) (dst : Operand) (s : State) : Host.Outcome State Fault Refusal :=
  .next (retire (.dec bw dst) advance s)

/-- INC (R251, R282). -/
def execInc (bw : Bit) (dst : Operand) (s : State) : Host.Outcome State Fault Refusal :=
  .next (retire (.inc bw dst) advance s)

end Sys2Proof.Machine
end

