-- ==== Sys2Proof/Machine/SingleOperand.lean ====
section
/-! DEFINITION. The meanings of the seven single-operand instructions (41_single_operand.md R150 to R160): the walker
steps over each of them, RETI included (45_flow_walker.md R282, R287), but CALL with an immediate destination (R276). -/

namespace Sys2Proof.Machine

/-- RRC (R151, R282). -/
def execRrc (bw : Bit) (opd : Operand) (s : State) : Host.Outcome State Fault Refusal :=
  .next (retire (.rrc bw opd) advance s)

/-- SWPB (R152, R282). -/
def execSwpb (bw : Bit) (opd : Operand) (s : State) : Host.Outcome State Fault Refusal :=
  .next (retire (.swpb bw opd) advance s)

/-- RRA (R153, R282). -/
def execRra (bw : Bit) (opd : Operand) (s : State) : Host.Outcome State Fault Refusal :=
  .next (retire (.rra bw opd) advance s)

/-- SXT (R154, R282). -/
def execSxt (bw : Bit) (opd : Operand) (s : State) : Host.Outcome State Fault Refusal :=
  .next (retire (.sxt bw opd) advance s)

/-- PUSH (R155, R282). -/
def execPush (bw : Bit) (opd : Operand) (s : State) : Host.Outcome State Fault Refusal :=
  .next (retire (.push bw opd) advance s)

/-- CALL (R156, R276, R282). -/
def execCall (bw : Bit) (opd : Operand) (s : State) : Host.Outcome State Fault Refusal :=
  .next (retire (.call bw opd) (callFlow opd) s)

/-- RETI (R157, R282). -/
def execReti (bw : Bit) (opd : Operand) (s : State) : Host.Outcome State Fault Refusal :=
  .next (retire (.reti bw opd) advance s)

end Sys2Proof.Machine
end

