-- ==== Sys2Proof/Machine/Dispatch.lean ====
section
/-! DEFINITION. One arm per constructor of `Instr`: the meaning of the instruction the walker acts on, in the state
whose `WU` holds the words it consumed (45_flow_walker.md R270). -/

namespace Sys2Proof.Machine

def exec (i : Instr) (s : State) : Host.Outcome State Fault Refusal :=
  match i with
  | .jne off disp => Sys2Proof.Machine.execJne off disp s
  | .jeq off disp => Sys2Proof.Machine.execJeq off disp s
  | .jlo off disp => Sys2Proof.Machine.execJlo off disp s
  | .jhs off disp => Sys2Proof.Machine.execJhs off disp s
  | .jn off disp => Sys2Proof.Machine.execJn off disp s
  | .jge off disp => Sys2Proof.Machine.execJge off disp s
  | .jl off disp => Sys2Proof.Machine.execJl off disp s
  | .jmp off disp => Sys2Proof.Machine.execJmp off disp s
  | .rrc bw opd => Sys2Proof.Machine.execRrc bw opd s
  | .swpb bw opd => Sys2Proof.Machine.execSwpb bw opd s
  | .rra bw opd => Sys2Proof.Machine.execRra bw opd s
  | .sxt bw opd => Sys2Proof.Machine.execSxt bw opd s
  | .push bw opd => Sys2Proof.Machine.execPush bw opd s
  | .call bw opd => Sys2Proof.Machine.execCall bw opd s
  | .reti bw opd => Sys2Proof.Machine.execReti bw opd s
  | .mov bw src dst => Sys2Proof.Machine.execMov bw src dst s
  | .add bw src dst => Sys2Proof.Machine.execAdd bw src dst s
  | .addc bw src dst => Sys2Proof.Machine.execAddc bw src dst s
  | .subc bw src dst => Sys2Proof.Machine.execSubc bw src dst s
  | .sub bw src dst => Sys2Proof.Machine.execSub bw src dst s
  | .cmp bw src dst => Sys2Proof.Machine.execCmp bw src dst s
  | .dadd bw src dst => Sys2Proof.Machine.execDadd bw src dst s
  | .bit bw src dst => Sys2Proof.Machine.execBit bw src dst s
  | .bic bw src dst => Sys2Proof.Machine.execBic bw src dst s
  | .bis bw src dst => Sys2Proof.Machine.execBis bw src dst s
  | .xor bw src dst => Sys2Proof.Machine.execXor bw src dst s
  | .and bw src dst => Sys2Proof.Machine.execAnd bw src dst s
  | .invalid => Sys2Proof.Machine.execInvalid s
  | .clr bw dst => Sys2Proof.Machine.execClr bw dst s
  | .nop bw => Sys2Proof.Machine.execNop bw s
  | .ret bw => Sys2Proof.Machine.execRet bw s
  | .pop bw dst => Sys2Proof.Machine.execPop bw dst s
  | .br bw src => Sys2Proof.Machine.execBr bw src s
  | .clrc bw => Sys2Proof.Machine.execClrc bw s
  | .clrz bw => Sys2Proof.Machine.execClrz bw s
  | .clrn bw => Sys2Proof.Machine.execClrn bw s
  | .dint bw => Sys2Proof.Machine.execDint bw s
  | .setc bw => Sys2Proof.Machine.execSetc bw s
  | .setz bw => Sys2Proof.Machine.execSetz bw s
  | .setn bw => Sys2Proof.Machine.execSetn bw s
  | .eint bw => Sys2Proof.Machine.execEint bw s
  | .rla bw dst => Sys2Proof.Machine.execRla bw dst s
  | .tst bw dst => Sys2Proof.Machine.execTst bw dst s
  | .dec bw dst => Sys2Proof.Machine.execDec bw dst s
  | .inc bw dst => Sys2Proof.Machine.execInc bw dst s

end Sys2Proof.Machine
end

