-- ==== Sys2Proof/Machine/Flags.lean ====
section
/-! DEFINITION. The status the host reads (70_reset_and_hazards.md R347, R348): the codes of STATUS (10_state.md R39)
and CAUSE (60_exceptions.md R311), and the observation of a run. The block has no status flags and no condition codes
(10_state.md R38): C, Z, N and GIE are names of idioms only, so no instruction computes a flag. -/

namespace Sys2Proof.Machine

/-- The 3-bit code of STATUS (R39). -/
def statusCode : Status → BitVec 3
  | .run => 0 | .endOfStream => 1 | .exhausted => 2 | .stoppedInvalid => 3 | .fault => 4

/-- The 3-bit code of CAUSE (R311). -/
def causeCode : Cause → BitVec 3
  | .none => 0 | .truncated => 1 | .badTarget => 2 | .queueOverflow => 3 | .stackOverflow => 4 | .malformedLength => 5

/-- What the host can read (R347, R348): the records, and the status and fault record. -/
structure Observation where
  records   : List Record
  status    : BitVec 3
  cause     : BitVec 3
  faultAddr : Int
  faultInfo : Int
  deriving DecidableEq, Repr

/-- The host's view of a state; `idx`, `VIS`, `BQ` and `CS` are not in it (R48, R69, R347). -/
def observe (s : State) : Observation :=
  { records := s.records, status := statusCode s.status, cause := causeCode s.cause,
    faultAddr := s.faultAddr, faultInfo := s.faultInfo }

end Sys2Proof.Machine
end

