-- ==== Sys2Proof/Machine/Loader.lean ====
section
/-! DEFINITION. Reset with an input (70_reset_and_hazards.md R340 to R343): the host's load and launch. -/

namespace Sys2Proof.Machine

/-- The memory of an input byte sequence from byte address `a` on (R63, R340), in canonical form. -/
def loadBytes : List Byte → Nat → List Host.Cell
  | [], _ => []
  | b :: bs, a => if b = unlistedByte then loadBytes bs (a + 1) else (a, b) :: loadBytes bs (a + 1)

/-- `Reset(b, L, MODE, INVALID_POLICY)` (R340): an input that does not fit the word memory is refused as a launch
(R341), an odd one too (log 16); an odd length leaves `FAULT` with `MALFORMED_LENGTH` and nothing loaded (R316); an even
one loads `L/2` words. Parameters outside R6's ranges (`NMAX`, `QD` or `SD` of 0) are taken as they are: with `NMAX = 0` the
empty input is loaded and any other refused. DESIGN CHOICE, unsafe (log 17). -/
def launch (cfg : Config) (b : List Byte) : Host.Outcome State Fault Refusal :=
  if 2 * cfg.nmax < b.length then .refused .streamTooLong
  else if b.length % 2 = 1 then
    .next { State.resetWith cfg with status := .fault, cause := .malformedLength, faultInfo := (b.length : Int) }
  else
    .next { State.resetWith cfg with n := b.length / 2, mem := loadBytes b 0 }

end Sys2Proof.Machine
end

