-- ==== Sys2Proof/Machine/Step.lean ====
section
/-! DEFINITION. One walker step (45_flow_walker.md R270), in the order of 60_exceptions.md R320, and the placing of one
instruction where the next step fetches. -/

namespace Sys2Proof.Machine

/-- `Step()` (R270, R320). On a terminal state it returns the state unchanged, which R286 allows. DESIGN CHOICE, safe
(log 2). A `Trunc` raises TRUNCATED and leaves `WU` as it was. DEDUCED, unsafe (log 7). -/
def step (s : State) : Host.Outcome State Fault Refusal :=
  if s.status ≠ .run then .next s
  else if atEnd s then .next (stop .endOfStream s)
  else
    match fetch s with
    | .outside => .fault (.wordOutOfRange s.idx)
    | .truncated need => .next (raiseFault .truncated (need : Int) s)
    | .instr fin words => exec fin (consume words s)

/-- `s` with the instruction whose bits are `w` stored where the next step fetches: three words at the cursor, the
bits above `nbits` zero. The stream is made long enough to hold them and the walker is in `RUN`, so that the very next
step decodes there; a cursor at the sentinel moves to the first word. It stands for the host's load (log 6). `NMAX` does not
bound it: near the end of the word memory, or with a small `NMAX`, `N` ends above `NMAX`, which no launch gives (R6, R341).
DESIGN CHOICE, unsafe (log 18). -/
def State.withFetchWord (s : State) (nbits w : Nat) : State :=
  { s with
    idx := max s.idx 1
    n := max s.n (max s.idx 1 + 2)
    mem := writeBytes s.mem (2 * (max s.idx 1 - 1)) (tableBytes nbits w)
    status := .run }

end Sys2Proof.Machine
end

