-- ==== Sys2Proof/Safety.lean ====
section
/-! DEFINITION. What a run's end is (70_reset_and_hazards.md R348), and which states a run can be in: the relations
the spec states between the fields of the state (10_state.md R33, R36, R40 to R43, R45; 45_flow_walker.md R278). -/

namespace Sys2Proof.Machine

/-- The walker takes no further step (R39, R286). -/
abbrev State.Terminal (s : State) : Prop := s.status ≠ .run

/-- The run ended successfully (R348). -/
abbrev State.EndedWell (s : State) : Prop :=
  s.status = .endOfStream ∨ s.status = .exhausted ∨ s.status = .stoppedInvalid

/-- An address `resume` accepts (R280): even and in `[0, 2N]`. -/
abbrev ValidTarget (n : Nat) (t : Int) : Prop := t % 2 = 0 ∧ 0 ≤ t ∧ t ≤ 2 * (n : Int)

/-- An output record as R45 describes it: one to three words, their number, and a start address of the stream. -/
abbrev Record.Ok (n : Nat) (r : Record) : Prop :=
  r.len = r.words.length ∧ 1 ≤ r.len ∧ r.len ≤ 3 ∧ r.start % 2 = 0 ∧ 0 ≤ r.start ∧ r.start + 2 * (r.len : Int) ≤ 2 * (n : Int)

/-- What a record says was read is what the stream holds from its start on, and what the pipeline reads from those words
(R45: `words` is `W[idx] … W[idx+len-1]`, `instr` the final value). -/
abbrev Record.Read (s : State) (r : Record) : Prop :=
  (∀ k, k < r.len → readWord s (index r.start + k) = r.words[k]?) ∧
  r.words.head?.map (fun w0 => resolve w0 r.words.tail) = some (.ok r.instr r.len)

/-- A record of a jump to this target (R275). -/
abbrev Record.JumpsTo (r : Record) (t : Int) : Prop :=
  (asJump r.instr).map (fun p => r.start + p.2.2) = some t

/-- A record of a CALL with an immediate destination that returns to this address (R276). -/
abbrev Record.ReturnsTo (r : Record) (a : Int) : Prop :=
  (asSingle r.instr).any (fun p => p.1 = .call && (callDest p.2.2).isSome) = true ∧ a = r.start + 2 * (r.len : Int)

/-- The cursor is where the spec lets it be between steps, `1 ≤ idx ≤ N + 1` (R33, R37). -/
abbrev State.CursorInRange (s : State) : Prop := 1 ≤ s.idx ∧ s.idx ≤ s.n + 1

/-- The relations between the fields that hold between any two steps of a run. Three rest on how the model holds its
state: the canonical memory (log 1), the records kept in the state (log 9), and `VIS` as a rising list (log 12). -/
structure State.Inv (s : State) : Prop where
  /-- The memory is in canonical form (the model's, log 1). -/
  mem_wf : Memory.wf s.mem
  /-- It lists bytes of loaded words only (R61). -/
  mem_in : ∀ c ∈ s.mem, c.1 < 2 * s.n
  /-- The stream fits the word memory (R6, R341). -/
  fits : s.n ≤ s.cfg.nmax
  /-- `1 ≤ idx ≤ N + 1` (R33, R37). -/
  idx_pos : 1 ≤ s.idx
  idx_le : s.idx ≤ s.n + 1
  /-- `WU` holds at most three words (R36). -/
  wu_le : s.wu.length ≤ 3
  /-- They are those of the last record, none before the first (R36, R45). What `WU` holds after a truncation is the
  model's reading (log 7) and left out. -/
  wu_last : s.cause ≠ .truncated → s.wu = (s.records.getLast?.map (·.words)).getD []
  /-- `VIS` has bits for the indices 1 to N (R43), each once, rising (the model's, log 12). -/
  vis_rising : s.vis.Pairwise (· < ·)
  vis_in : ∀ i ∈ s.vis, 1 ≤ i ∧ i ≤ s.n
  /-- `VIS[i] = 1` iff a `FLOW` step started an instruction at `i` (R43): the records tell which did. -/
  vis_started : ∀ i ∈ s.vis, s.cfg.mode = .flow ∧ ∃ r ∈ s.records, r.start = addr i
  started_vis : s.cfg.mode = .flow → ∀ r ∈ s.records, index r.start ∈ s.vis
  /-- `BQ` holds at most `QD` targets (R41), all even (R66), each of a jump that was emitted (R275). -/
  bq_le : s.bq.length ≤ s.cfg.qd
  bq_even : ∀ t ∈ s.bq, t % 2 = 0
  bq_jumps : ∀ t ∈ s.bq, ∃ r ∈ s.records, r.JumpsTo t
  /-- `CS` holds at most `SD` return addresses (R42), each one `resume` accepts (R278), each of a CALL that was
  followed (R276). -/
  cs_le : s.cs.length ≤ s.cfg.sd
  cs_valid : ∀ r ∈ s.cs, ValidTarget s.n r
  cs_calls : ∀ a ∈ s.cs, ∃ r ∈ s.records, r.ReturnsTo a
  /-- In `LINEAR` mode `BQ` and `CS` stay empty (R273). -/
  linear_empty : s.cfg.mode = .linear → s.bq = [] ∧ s.cs = []
  /-- `CAUSE` is `NONE` exactly when `STATUS ≠ FAULT` (R40, R312), and then `FAULT_ADDR` and `FAULT_INFO` are 0. -/
  cause_none : s.cause = .none ↔ s.status ≠ .fault
  addr_zero : s.status ≠ .fault → s.faultAddr = 0 ∧ s.faultInfo = 0
  /-- In `FAULT` the cursor has not moved, so `FAULT_ADDR = addr(idx)` (R288, R312; after a loader refusal both are the
  first word's, R340). -/
  fault_at : s.status = .fault → s.faultAddr = addr s.idx
  /-- END_OF_STREAM is met at the end marker (R271), EXHAUSTED with nothing left to explore (R279), STOPPED_INVALID under
  HALT (R273, R281). -/
  ended_at : s.status = .endOfStream → s.idx = s.n + 1
  exhausted_empty : s.status = .exhausted → s.cfg.mode = .flow ∧ s.bq = [] ∧ s.cs = []
  stopped_policy : s.status = .stoppedInvalid → s.cfg.policy = .halt
  /-- Every record has the shape R45 gives it, and was read from the stream at its start. -/
  records_ok : ∀ r ∈ s.records, r.Ok s.n
  records_read : ∀ r ∈ s.records, r.Read s

end Sys2Proof.Machine
end

