-- ==== Sys2Proof/Certificates/Slice0/Obligations.lean ====
section
/-! DEFINITION. The statements for the provers. Each docstring names what of spec/ it formalises; a statement that rests
on a decision of 92_eei_decisions.md (Dn) or on an entry of the assumption log (log n) says so. -/

namespace Sys2Proof.Machine

/-- The record `(start, len, words, instr)` an instruction emits (R45): its start address, the words in `WU`. -/
def recordOf (i : Instr) (s : State) : Record :=
  { start := addr s.idx, len := s.wu.length, words := s.wu, instr := i }

/-- The operand form `{0, AUTOINC, Some D, None}` of a followed CALL (R276). -/
def immediate (d : Word) : Operand := { reg := 0, mode := .autoinc, ext := some d, cg := none }

/-- The instructions of R282: every double-operand instruction, every idiom but RET, every single-operand instruction
but a CALL of the immediate form. -/
def SteppedOver : Instr → Prop
  | .jne _ _ => False
  | .jeq _ _ => False
  | .jlo _ _ => False
  | .jhs _ _ => False
  | .jn _ _ => False
  | .jge _ _ => False
  | .jl _ _ => False
  | .jmp _ _ => False
  | .rrc _ _ => True
  | .swpb _ _ => True
  | .rra _ _ => True
  | .sxt _ _ => True
  | .push _ _ => True
  | .call _ opd => ∀ d, opd ≠ immediate d
  | .reti _ _ => True
  | .mov _ _ _ => True
  | .add _ _ _ => True
  | .addc _ _ _ => True
  | .subc _ _ _ => True
  | .sub _ _ _ => True
  | .cmp _ _ _ => True
  | .dadd _ _ _ => True
  | .bit _ _ _ => True
  | .bic _ _ _ => True
  | .bis _ _ _ => True
  | .xor _ _ _ => True
  | .and _ _ _ => True
  | .invalid => False
  | .clr _ _ => True
  | .nop _ => True
  | .ret _ => False
  | .pop _ _ => True
  | .br _ _ => True
  | .clrc _ => True
  | .clrz _ => True
  | .clrn _ => True
  | .dint _ => True
  | .setc _ => True
  | .setz _ => True
  | .setn _ => True
  | .eint _ => True
  | .rla _ _ => True
  | .tst _ _ => True
  | .dec _ _ => True
  | .inc _ _ => True

/-- `Visited(c)` of R277, in a step that has marked its own start (R274). -/
def SeenBy (s : State) (c : Int) : Prop :=
  c % 2 = 0 ∧ 0 ≤ c ∧ c ≤ 2 * (s.n : Int) - 2 ∧ ((c / 2 + 1).toNat = s.idx ∨ (c / 2 + 1).toNat ∈ s.vis)

/-- "source = Program Counter, Indirect-Autoincrement, immediate k" (R233): the normalizer's constant, or the word of
the `#imm` idiom (R214). -/
def Immediate (k : Int) (o : Operand) : Prop :=
  o.reg = 0 ∧ o.mode = .autoinc ∧ (o.cg = some k ∨ (o.cg = none ∧ ∃ w : Word, o.ext = some w ∧ (w.toNat : Int) = k))

/-- The value of the jump word's ten offset bits as a signed number (R98). -/
def signedOffset (w0 : Word) : Int :=
  if w0.toNat % 1024 < 512 then ((w0.toNat % 1024 : Nat) : Int) else ((w0.toNat % 1024 : Nat) : Int) - 1024

end Sys2Proof.Machine

open Sys2Proof Sys2Proof.Machine

/-! ## The step -/

/-- R270: in `RUN`, when the words at the cursor decode, normalize and recognize to `fin` with length `len`, the step is
`exec fin` in the state whose `WU` holds those `len` words; `fin` is well-formed, and the words are in the stream. -/
def Obligations.StepRunsTheDecodedInstruction : Prop :=
  ∀ (s : State) (w0 : Word) (exts : List Word) (fin : Instr) (len : Nat),
    s.status = .run → fetchWindow s = some (w0, exts) → resolve w0 exts = .ok fin len →
    fin.wellFormed = true ∧ 1 ≤ len ∧ len ≤ 1 + exts.length ∧
      step s = exec fin { s with wu := (w0 :: exts).take len }

/-- R65, R103: the window of the decoder is `W[idx]` and the words after it, `avail = min(3, N + 1 - idx)` in all, in
increasing index order; a cursor that names no word of the stream has none. -/
def Obligations.FetchWindowHoldsTheNextWords : Prop :=
  ∀ s : State,
    (1 ≤ s.idx → s.idx ≤ s.n → ∃ w0 exts, fetchWindow s = some (w0, exts) ∧
      1 + exts.length = min 3 (s.n + 1 - s.idx) ∧ readWord s s.idx = some w0 ∧
      ∀ k, k < exts.length → readWord s (s.idx + 1 + k) = exts[k]?) ∧
    (s.idx = 0 ∨ s.n < s.idx → fetchWindow s = none)

/-- R271, R320: at index `N + 1` a step sets `STATUS` to END_OF_STREAM and changes nothing else. That the walk ends there
in `FLOW` mode too is the spec's decision D21. -/
def Obligations.EndOfStreamEndsTheRun : Prop :=
  ∀ s : State, s.status = .run → s.idx = s.n + 1 → step s = .next { s with status := .endOfStream }

/-- 45_flow_walker.md section 3, terminal states: no further step, the state unchanged. The spec's decision D29; that a
step answers the state unchanged, and not "halted", is the model's choice (log 2). -/
def Obligations.TerminalStatesTakeNoStep : Prop :=
  ∀ s : State, s.status ≠ .run → step s = .next s

/-- 60_exceptions.md section 2, `TRUNCATED`: the fault record is written, no record is emitted, and nothing else changes.
The spec's decision D30; that `WU` keeps its old words is the model's reading (log 7). -/
def Obligations.TruncationRaisesTheFault : Prop :=
  ∀ (s : State) (w0 : Word) (exts : List Word) (need : Nat),
    s.status = .run → fetchWindow s = some (w0, exts) → resolve w0 exts = .trunc need →
    step s = .next { s with status := .fault, cause := .truncated, faultAddr := addr s.idx, faultInfo := (need : Int) }

/-- 10_state.md section 10: a step that would read a word outside `W[1..N]` is a fault of the model. No run reaches
such a cursor; the stop is the model's (log 8). -/
def Obligations.CursorOutsideTheStreamStops : Prop :=
  ∀ s : State, s.status = .run → (s.idx = 0 ∨ s.n + 1 < s.idx) → step s = .fault (.wordOutOfRange s.idx)

/-! ## Instructions in FLOW mode -/

/-- R275, R131: JNE, JEQ, JLO, JHS, JN, JGE, JL and JMP. In `FLOW` mode, with room in the queue, a jump of any
condition emits its record, marks its start visited, appends `start + disp` to the branch queue without any check, and
moves the cursor one word on; nothing else changes. -/
def Obligations.JumpEnqueuesItsTarget : Prop :=
  ∀ (c : Cond) (off disp : Int) (s : State), s.cfg.mode = .flow → s.bq.length ≠ s.cfg.qd →
    exec (mkJump c off disp) s = .next { s with
      records := s.records ++ [recordOf (mkJump c off disp) s]
      vis := visInsert s.idx s.vis
      bq := s.bq ++ [addr s.idx + disp]
      idx := s.idx + 1 }

/-- 45_flow_walker.md section 3, queue overflow (the spec's decision D23): a jump into a full queue keeps its record and
its VIS mark, and leaves the queue and the cursor as they were. -/
def Obligations.JumpIntoFullQueueFaults : Prop :=
  ∀ (c : Cond) (off disp : Int) (s : State), s.cfg.mode = .flow → s.bq.length = s.cfg.qd →
    exec (mkJump c off disp) s = .next { s with
      records := s.records ++ [recordOf (mkJump c off disp) s]
      vis := visInsert s.idx s.vis
      status := .fault
      cause := .queueOverflow
      faultAddr := addr s.idx
      faultInfo := addr s.idx + disp }

/-- 45_flow_walker.md section 2, CALL with an immediate destination (D15, D18, D20): with room on the stack and an even
destination in `[0, 2N]`, the return address `start + 2*len` is pushed and the cursor is set to the destination. -/
def Obligations.CallImmediateIsFollowed : Prop :=
  ∀ (bw : Bit) (d : Word) (s : State), s.cfg.mode = .flow → s.cs.length ≠ s.cfg.sd →
    d.toNat % 2 = 0 → d.toNat ≤ 2 * s.n →
    exec (.call bw (immediate d)) s = .next { s with
      records := s.records ++ [recordOf (.call bw (immediate d)) s]
      vis := visInsert s.idx s.vis
      cs := (addr s.idx + 2 * (s.wu.length : Int)) :: s.cs
      idx := d.toNat / 2 + 1 }

/-- 45_flow_walker.md sections 2 and 3 (D18, D23, D31): the two faults of a followed CALL. A full stack raises
STACK_OVERFLOW and pushes nothing; with room, an odd destination or one above `2N` raises BAD_TARGET after the push. -/
def Obligations.CallImmediateFaults : Prop :=
  ∀ (bw : Bit) (d : Word) (s : State), s.cfg.mode = .flow →
    (s.cs.length = s.cfg.sd →
      exec (.call bw (immediate d)) s = .next { s with
        records := s.records ++ [recordOf (.call bw (immediate d)) s]
        vis := visInsert s.idx s.vis
        status := .fault
        cause := .stackOverflow
        faultAddr := addr s.idx
        faultInfo := addr s.idx + 2 * (s.wu.length : Int) }) ∧
    (s.cs.length ≠ s.cfg.sd → (d.toNat % 2 = 1 ∨ 2 * s.n < d.toNat) →
      exec (.call bw (immediate d)) s = .next { s with
        records := s.records ++ [recordOf (.call bw (immediate d)) s]
        vis := visInsert s.idx s.vis
        cs := (addr s.idx + 2 * (s.wu.length : Int)) :: s.cs
        status := .fault
        cause := .badTarget
        faultAddr := addr s.idx
        faultInfo := (d.toNat : Int) })

/-- R282 (with the record of R272 and the mark of R274): RRC, SWPB, RRA, SXT, PUSH, RETI, CALL of every form but the
immediate one; MOV, ADD, ADDC, SUBC, SUB, CMP, DADD, BIT, BIC, BIS, XOR, AND; CLR, NOP, POP, BR, CLRC, CLRZ, CLRN, DINT,
SETC, SETZ, SETN, EINT, RLA, TST, DEC, INC. In `FLOW` mode the cursor moves past the words consumed and nothing else
changes. -/
def Obligations.OtherInstructionsAreSteppedOver : Prop :=
  ∀ (i : Instr) (s : State), s.cfg.mode = .flow → SteppedOver i →
    exec i s = .next { s with
      records := s.records ++ [recordOf i s]
      vis := visInsert s.idx s.vis
      idx := s.idx + s.wu.length }

/-- 45_flow_walker.md section 2, `Invalid` in `FLOW` mode (the spec's decision D22): SKIP moves one word on, HALT stops
with STOPPED_INVALID; no fault is recorded either way. -/
def Obligations.InvalidFollowsThePolicy : Prop :=
  ∀ s : State, s.cfg.mode = .flow →
    (s.cfg.policy = .skip → exec .invalid s = .next { s with
      records := s.records ++ [recordOf .invalid s], vis := visInsert s.idx s.vis, idx := s.idx + 1 }) ∧
    (s.cfg.policy = .halt → exec .invalid s = .next { s with
      records := s.records ++ [recordOf .invalid s], vis := visInsert s.idx s.vis, status := .stoppedInvalid })

/-- 45_flow_walker.md section 2, RET: drain the branch queue (FIFO is D16; a candidate outside the stream is not visited,
D19). When the first candidate that is not visited is an address `resume` accepts, RET discards the visited ones before
it, takes it off the queue, and sets the cursor there; CS is not touched. -/
def Obligations.RetResumesAtTheFirstUnvisitedCandidate : Prop :=
  ∀ (bw : Bit) (s : State) (pre post : List Int) (c : Int), s.cfg.mode = .flow →
    s.bq = pre ++ c :: post → (∀ x ∈ pre, SeenBy s x) → ¬ SeenBy s c → ValidTarget s.n c →
    exec (.ret bw) s = .next { s with
      records := s.records ++ [recordOf (.ret bw) s]
      vis := visInsert s.idx s.vis
      bq := post
      idx := (c / 2 + 1).toNat }

/-- 45_flow_walker.md section 2, RET: fall back to the call stack (D17). When every candidate is visited, or there is
none, RET empties the queue, pops the top return address and sets the cursor there, without consulting VIS. -/
def Obligations.RetPopsTheCallStack : Prop :=
  ∀ (bw : Bit) (s : State) (r : Int) (rest : List Int), s.cfg.mode = .flow →
    (∀ x ∈ s.bq, SeenBy s x) → s.cs = r :: rest → ValidTarget s.n r →
    exec (.ret bw) s = .next { s with
      records := s.records ++ [recordOf (.ret bw) s]
      vis := visInsert s.idx s.vis
      bq := []
      cs := rest
      idx := (r / 2 + 1).toNat }

/-- R279: a RET that finds no usable candidate and an empty stack sets EXHAUSTED and keeps its own index; CAUSE and the
fault record stay as they are. -/
def Obligations.RetExhaustsTheWalk : Prop :=
  ∀ (bw : Bit) (s : State), s.cfg.mode = .flow → (∀ x ∈ s.bq, SeenBy s x) → s.cs = [] →
    exec (.ret bw) s = .next { s with
      records := s.records ++ [recordOf (.ret bw) s]
      vis := visInsert s.idx s.vis
      bq := []
      status := .exhausted }

/-- 45_flow_walker.md sections 2 and 3 (D18, D19, D31): when the first candidate that is not visited is odd or outside
`[0, 2N]`, RET raises BAD_TARGET with it; that candidate and the visited ones before it stay dequeued. -/
def Obligations.RetBadCandidateFaults : Prop :=
  ∀ (bw : Bit) (s : State) (pre post : List Int) (c : Int), s.cfg.mode = .flow →
    s.bq = pre ++ c :: post → (∀ x ∈ pre, SeenBy s x) → ¬ ValidTarget s.n c →
    exec (.ret bw) s = .next { s with
      records := s.records ++ [recordOf (.ret bw) s]
      vis := visInsert s.idx s.vis
      bq := post
      status := .fault
      cause := .badTarget
      faultAddr := addr s.idx
      faultInfo := c }

/-! ## Instructions in LINEAR mode -/

/-- 45_flow_walker.md section 1, `LINEAR` mode (D34): every instruction of the table, jumps, CALL and RET included, and
`Invalid` under SKIP, emits its record and is stepped over; VIS, BQ and CS are not touched. -/
def Obligations.LinearScanStepsOverEverything : Prop :=
  ∀ (i : Instr) (s : State), s.cfg.mode = .linear → (i ≠ .invalid ∨ s.cfg.policy = .skip) →
    exec i s = .next { s with records := s.records ++ [recordOf i s], idx := s.idx + s.wu.length }

/-- 45_flow_walker.md section 1, `LINEAR` mode: `Invalid` under HALT emits its record and stops with STOPPED_INVALID
(D22). -/
def Obligations.LinearHaltStopsAtInvalid : Prop :=
  ∀ s : State, s.cfg.mode = .linear → s.cfg.policy = .halt →
    exec .invalid s = .next { s with records := s.records ++ [recordOf .invalid s], status := .stoppedInvalid }

/-! ## Frames -/

/-- The frame of every instruction (45_flow_walker.md sections 1 and 2): the parameters, N, the sentinel, WU and every
byte of the word memory are unchanged; exactly one record is appended; no VIS bit but the start's changes; only jumps and
RET touch BQ; only an immediate CALL and RET touch CS; only those three kinds touch the fault record; and only they and
`Invalid` touch STATUS. In `LINEAR` mode VIS, BQ, CS and the fault record are unchanged for every instruction (D34). -/
def Obligations.ExecFrame : Prop :=
  ∀ (i : Instr) (s t : State), exec i s = .next t →
    t.cfg = s.cfg ∧ t.n = s.n ∧ t.sentinel = s.sentinel ∧ t.wu = s.wu ∧
    (∀ a, readByte t.mem a = readByte s.mem a) ∧
    t.records = s.records ++ [recordOf i s] ∧
    (∀ j, j ≠ s.idx → (j ∈ t.vis ↔ j ∈ s.vis)) ∧
    ((∀ c off disp, i ≠ mkJump c off disp) → (∀ bw, i ≠ .ret bw) → t.bq = s.bq) ∧
    ((∀ bw d, i ≠ .call bw (immediate d)) → (∀ bw, i ≠ .ret bw) → t.cs = s.cs) ∧
    ((∀ c off disp, i ≠ mkJump c off disp) → (∀ bw d, i ≠ .call bw (immediate d)) → (∀ bw, i ≠ .ret bw) →
      t.cause = s.cause ∧ t.faultAddr = s.faultAddr ∧ t.faultInfo = s.faultInfo ∧
      (i ≠ .invalid → t.status = s.status)) ∧
    (s.cfg.mode = .linear → t.vis = s.vis ∧ t.bq = s.bq ∧ t.cs = s.cs ∧ t.cause = s.cause ∧
      t.faultAddr = s.faultAddr ∧ t.faultInfo = s.faultInfo)

/-- R62: the block never writes `W`. No step changes a word of it, `N`, the sentinel or the parameters (R44). -/
def Obligations.WordMemoryIsNeverWritten : Prop :=
  ∀ s t : State, step s = .next t →
    (∀ i, readWord t i = readWord s i) ∧ t.mem = s.mem ∧ t.n = s.n ∧ t.sentinel = s.sentinel ∧ t.cfg = s.cfg

/-- R274: a `FLOW` step that decodes without truncation sets the bit of its start index and no other bit, whatever its
flow action then does; extension words are not marked. The mark comes before the flow action: a RET whose one candidate
is its own start finds it visited. -/
def Obligations.FlowStepMarksItsStart : Prop :=
  ∀ (s t : State) (fin : Instr) (words : List Word), s.status = .run → s.cfg.mode = .flow →
    fetch s = .instr fin words → step s = .next t →
    (∀ j, j ∈ t.vis ↔ j ∈ s.vis ∨ j = s.idx) ∧
    (∀ bw, fin = .ret bw → s.bq = [addr s.idx] → s.cs = [] → t.status = .exhausted ∧ t.bq = [])

/-- 10_state.md section 8 (D30, D33): a step appends at most one record; it starts at the cursor's address, and its
words are the one to three stream words from the cursor on. -/
def Obligations.StepEmitsAtMostOneRecord : Prop :=
  ∀ s t : State, step s = .next t →
    t.records = s.records ∨
    ∃ r : Record, t.records = s.records ++ [r] ∧ r.start = addr s.idx ∧ r.words.length = r.len ∧ t.wu = r.words ∧
      1 ≤ r.len ∧ r.len ≤ 3 ∧ ∀ k, k < r.len → readWord s (s.idx + k) = r.words[k]?

/-- 60_exceptions.md section 2 and 45_flow_walker.md section 3 (R288; D29, D31): what a step that faults leaves.
FAULT_ADDR is the start address and the cursor is where it was. TRUNCATED leaves records, VIS, BQ and CS alone. Every
other fault is that of the instruction fetched, in `FLOW` mode, whose record and VIS mark are kept: a jump whose target
did not fit; an immediate CALL whose return address did not fit; an immediate CALL to a bad destination, the return
address pushed; a RET to a bad candidate, it and the visited ones before it dequeued; a RET to a bad return address,
popped, the queue drained (which no run reaches, R278). -/
def Obligations.FaultEntryIsPrecise : Prop :=
  ∀ s t : State, s.status = .run → step s = .next t → t.status = .fault →
    t.faultAddr = addr s.idx ∧ t.idx = s.idx ∧
    ((t.cause = .truncated ∧ (t.faultInfo = 2 ∨ t.faultInfo = 3) ∧ t.records = s.records ∧ t.vis = s.vis ∧
        t.bq = s.bq ∧ t.cs = s.cs) ∨
     ∃ fin words, fetch s = .instr fin words ∧ s.cfg.mode = .flow ∧
       t.records = s.records ++ [{ start := addr s.idx, len := words.length, words := words, instr := fin }] ∧
       t.vis = visInsert s.idx s.vis ∧
       ((t.cause = .queueOverflow ∧ (∃ c off disp, fin = mkJump c off disp ∧ t.faultInfo = addr s.idx + disp) ∧
           s.bq.length = s.cfg.qd ∧ t.bq = s.bq ∧ t.cs = s.cs) ∨
        (t.cause = .stackOverflow ∧ (∃ bw d, fin = .call bw (immediate d)) ∧
           t.faultInfo = addr s.idx + 2 * (words.length : Int) ∧
           s.cs.length = s.cfg.sd ∧ t.bq = s.bq ∧ t.cs = s.cs) ∨
        (t.cause = .badTarget ∧ ¬ ValidTarget s.n t.faultInfo ∧
          ((∃ bw d, fin = .call bw (immediate d) ∧ t.faultInfo = (d.toNat : Int) ∧ s.cs.length ≠ s.cfg.sd ∧
              t.bq = s.bq ∧ t.cs = (addr s.idx + 2 * (words.length : Int)) :: s.cs) ∨
           (∃ bw pre, fin = .ret bw ∧ s.bq = pre ++ t.faultInfo :: t.bq ∧ (∀ x ∈ pre, SeenBy s x) ∧
              ¬ SeenBy s t.faultInfo ∧ t.cs = s.cs) ∨
           (∃ bw, fin = .ret bw ∧ (∀ x ∈ s.bq, SeenBy s x) ∧ t.bq = [] ∧ s.cs = t.faultInfo :: t.cs)))))

/-- 60_exceptions.md section 3 (D31): which instruction can raise which fault. From `RUN`, an instruction that leaves
`FAULT` is, in `FLOW` mode, a jump with QUEUE_OVERFLOW, an immediate CALL with STACK_OVERFLOW or BAD_TARGET, or a RET
with BAD_TARGET. -/
def Obligations.OnlyFlowInstructionsFault : Prop :=
  ∀ (i : Instr) (s t : State), s.status = .run → exec i s = .next t → t.status = .fault →
    s.cfg.mode = .flow ∧
    (((∃ c off disp, i = mkJump c off disp) ∧ t.cause = .queueOverflow) ∨
     ((∃ bw d, i = .call bw (immediate d)) ∧ (t.cause = .stackOverflow ∨ t.cause = .badTarget)) ∨
     ((∃ bw, i = .ret bw) ∧ t.cause = .badTarget))

/-- R282, R287: the walker follows nothing but an immediate CALL and RET. A step after which the walk goes on moves the
cursor past the words it consumed, unless the instruction was one of those two and the mode is `FLOW`. -/
def Obligations.OnlyCallAndRetRedirectTheCursor : Prop :=
  ∀ s t : State, s.status = .run → step s = .next t → t.status = .run →
    ∃ fin words, fetch s = .instr fin words ∧ t.wu = words ∧
      (t.idx = s.idx + words.length ∨
        (s.cfg.mode = .flow ∧ ((∃ bw d, fin = .call bw (immediate d)) ∨ ∃ bw, fin = .ret bw)))

/-! ## Invariants -/

/-- Every step keeps `State.Inv`: the ranges and capacities (R6, R33, R36, R37, R41, R42, R43, R61); WU, VIS, BQ and CS
accounted for by the records (R36, R43, R275, R276; BQ and CS empty in LINEAR mode, R273, D34); the return addresses valid
(R278) and the targets even (R66); the fault record (R40, R288, R312; D24, D31) and the terminal states (R271, R279,
R281); every record as R45 describes it, its words those of the stream. Three clauses are about the model's own form of
the state: the canonical memory (log 1), the records kept in the state (log 9), and VIS as a rising list (log 12). -/
def Obligations.StepKeepsTheInvariant : Prop :=
  ∀ s t : State, s.Inv → step s = .next t → t.Inv

/-- The invariant holds right after reset. The values of QD, SD, MODE and the sentinel there are the model's choice
(log 3, 4, 5). -/
def Obligations.ResetMeetsTheInvariant : Prop := State.reset.Inv

/-- The invariant holds after every launch that is not refused, a loader refusal for an odd length included
(70_reset_and_hazards.md section 1; D36). -/
def Obligations.LaunchMeetsTheInvariant : Prop :=
  ∀ (cfg : Config) (b : List Byte) (s : State), launch cfg b = .next s → s.Inv

/-- No instruction, word or mode stops the model: with the cursor in its range (R33, R37: two clauses of the invariant,
which every step keeps), a step always answers a next state, since the decoder is total (R103) and every case of R270 has
an effect. In a terminal state that is the state itself, which is the model's choice: R286 and D29 also allow a report that
it is halted (log 2). -/
def Obligations.InvariantStatesAlwaysStep : Prop :=
  ∀ s : State, s.CursorInRange → ∃ t, step s = .next t ∧ (s.status ≠ .run → t = s)

/-! ## Encoding -/

/-- Decoding an encoded instruction gives it back with its length, for every instruction the decoder can emit, every
operand value, and any words behind it (R82, R83, R84, R96, R97). -/
def Obligations.DecoderReadsBackTheEncoding : Prop :=
  ∀ (i : Instr) (more : List Word), i.decodedForm = true →
    ∃ w0 exts, encode i = w0 :: exts ∧ decode w0 (exts ++ more) = .ok i (encode i).length

/-- The whole pipeline (decode, normalize, recognize) gives back every well-formed instruction, normalized constants and
idioms included, from its encoding and any words behind it (R211, R230). Which words stand for an idiom is the
encoder's choice (log 15). -/
def Obligations.PipelineReadsBackTheEncoding : Prop :=
  ∀ (i : Instr) (more : List Word), i.wellFormed = true →
    ∃ w0 exts, encode i = w0 :: exts ∧ resolve w0 (exts ++ more) = .ok i (encode i).length

/-- R97, R101, R103: what the decoder emits has the decoder's operand forms, and its length is that of the first word
alone and no more than the words at hand. -/
def Obligations.DecodedInstructionIsWellFormed : Prop :=
  ∀ (w0 : Word) (exts : List Word) (d : Instr) (len : Nat), decode w0 exts = .ok d len →
    d.decodedForm = true ∧ len = instrLength w0 ∧ 1 ≤ len ∧ len ≤ 3 ∧ len ≤ 1 + exts.length

/-- 30_encoding.md section 5: re-encoding a decoded instruction gives the very words it consumed, so that no bit of a
word is lost but those of `Invalid`, which carries no field. -/
def Obligations.EncoderRestoresTheWords : Prop :=
  ∀ (w0 : Word) (exts : List Word) (d : Instr) (len : Nat), decode w0 exts = .ok d len → d ≠ .invalid →
    encode d = (w0 :: exts).take len

/-- R104: `Trunc(need)` exactly when the instruction needs `need` words and fewer remain; `need` is 2 or 3. -/
def Obligations.TruncationExactlyWhenWordsAreMissing : Prop :=
  ∀ (w0 : Word) (exts : List Word) (need : Nat),
    (decode w0 exts = .trunc need ↔ need = instrLength w0 ∧ 1 + exts.length < need) ∧
    (decode w0 exts = .trunc need → need = 2 ∨ need = 3)

/-- R96, R103: the decoder uses no word behind the instruction's own. -/
def Obligations.DecodeReadsOnlyConsumedWords : Prop :=
  ∀ (w0 : Word) (exts more : List Word) (d : Instr) (len : Nat), decode w0 exts = .ok d len →
    decode w0 (exts.take (len - 1) ++ more) = .ok d len

/-- 30_encoding.md section 6: a first word decodes as `Invalid`, with length 1, in exactly three ranges, whatever words
follow. Which opcode values have no entry is the spec's decision D4 and D5, from general knowledge (log 14). -/
def Obligations.InvalidExactlyInThreeRanges : Prop :=
  ∀ (w0 : Word) (exts : List Word) (len : Nat),
    decode w0 exts = .ok .invalid len ↔
      len = 1 ∧ (w0.toNat ≤ 0x0FFF ∨ (0x1380 ≤ w0.toNat ∧ w0.toNat ≤ 0x13FF) ∨ (0x1400 ≤ w0.toNat ∧ w0.toNat ≤ 0x1FFF))

/-- 30_encoding.md sections 1 and 8 (90_conflicts.md C1): the flavors as ranges of the first word. -/
def Obligations.FlavorsAreWordRanges : Prop :=
  ∀ w : Word,
    (flavor w = .single ↔ 0x1000 ≤ w.toNat ∧ w.toNat ≤ 0x13FF) ∧
    (flavor w = .jump ↔ 0x2000 ≤ w.toNat ∧ w.toNat ≤ 0x3FFF) ∧
    (flavor w = .double ↔ w.toNat ≤ 0x0FFF ∨ (0x1400 ≤ w.toNat ∧ w.toNat ≤ 0x1FFF) ∨ 0x4000 ≤ w.toNat)

/-- R130: every jump word decodes, whatever follows, to a jump of length 1 with the condition of its bits 12 to 10, the
signed offset of its low ten bits and the displacement `2*off + 2`, and the normalizer and the recognizer leave it
unchanged. -/
def Obligations.JumpWordsDecodeByTheOffsetLaw : Prop :=
  ∀ (w0 : Word) (exts : List Word), flavor w0 = .jump →
    ∃ c, (condCode c).toNat = w0.toNat / 1024 % 8 ∧
      decode w0 exts = .ok (mkJump c (signedOffset w0) (2 * signedOffset w0 + 2)) 1 ∧
      resolve w0 exts = .ok (mkJump c (signedOffset w0) (2 * signedOffset w0 + 2)) 1

/-- R131: the target a jump step enqueues is `start + 2 + 2*off`, an integer that is never wrapped; it lies within
[-1022, 1024] of the start, is even, and is enqueued whether or not it is an address of the stream. -/
def Obligations.JumpTargetIsAnUnwrappedInteger : Prop :=
  ∀ (s : State) (w0 : Word) (exts : List Word), s.status = .run → s.cfg.mode = .flow → s.bq.length ≠ s.cfg.qd →
    fetchWindow s = some (w0, exts) → flavor w0 = .jump →
    ∃ t : State, ∃ target : Int, step s = .next t ∧ target = addr s.idx + 2 + 2 * signedOffset w0 ∧
      t.bq = s.bq ++ [target] ∧ -1022 ≤ target - addr s.idx ∧ target - addr s.idx ≤ 1024 ∧
      (target - addr s.idx) % 2 = 0 ∧ t.idx = s.idx + 1

/-- 41_single_operand.md, aliases and ABSOLUTE (R158, R159; D35): a single-operand operand that the decoder gives an alias
mode takes no extension word and has no constant, the instruction is one word long, and the pipeline gives it back as the
decoder read it; and one that the pipeline gives is what the decoder read. That its register is 2 or 3 rests on register 2
as SR and on the cells of the mode table, which the spec decides (D6, D7) and marks as general knowledge (R89, R95;
log 14). -/
def Obligations.SingleOperandAliasesStay : Prop :=
  ∀ (w0 : Word) (exts : List Word) (i : Instr) (len : Nat) (op : SOp) (bw : Bit) (o : Operand),
    asSingle i = some (op, bw, o) → (o.mode = .absolute ∨ constValue o.mode ≠ none) →
    (decode w0 exts = .ok i len ∨ resolve w0 exts = .ok i len) →
    (o.reg = 2 ∨ o.reg = 3) ∧ o.ext = none ∧ o.cg = none ∧ len = 1 ∧
      decode w0 exts = .ok i 1 ∧ resolve w0 exts = .ok i 1

/-! ## Normalizer and recognizer -/

/-- R210, R211, R212, R213: the normalizer rewrites the source of a double-operand instruction whose mode is one of the
six constants to `{0, AUTOINC, None, Some v}`, leaves every other source, every destination, `op` and `bw` unchanged, and
leaves every other instruction unchanged. -/
def Obligations.NormalizerRewritesConstantSources : Prop :=
  ∀ i : Instr,
    (asDouble i = none → normalizeInstr i = i) ∧
    ∀ (op : DOp) (bw : Bit) (src dst : Operand), i = mkDouble op bw src dst →
      ∃ src', normalizeInstr i = mkDouble op bw src' dst ∧
        (src.mode = .const0 → src' = ⟨0, .autoinc, none, some 0⟩) ∧
        (src.mode = .const1 → src' = ⟨0, .autoinc, none, some 1⟩) ∧
        (src.mode = .const2 → src' = ⟨0, .autoinc, none, some 2⟩) ∧
        (src.mode = .const4 → src' = ⟨0, .autoinc, none, some 4⟩) ∧
        (src.mode = .const8 → src' = ⟨0, .autoinc, none, some 8⟩) ∧
        (src.mode = .constNeg1 → src' = ⟨0, .autoinc, none, some (-1)⟩) ∧
        (src.mode = .direct ∨ src.mode = .indexed ∨ src.mode = .indirect ∨ src.mode = .autoinc ∨ src.mode = .absolute →
          src' = src)

/-- 43_normalizer.md and 44_pseudo.md, the properties the stages keep: each is idempotent, and after the normalizer no
double-operand source is a constant alias. -/
def Obligations.PipelineStagesAreIdempotent : Prop :=
  ∀ i : Instr, normalizeInstr (normalizeInstr i) = normalizeInstr i ∧ final (final i) = final i ∧
    (recognize i = none → recognize (final i) = none) ∧
    (∀ op bw src dst, normalizeInstr i = mkDouble op bw src dst → constValue src.mode = none)

/-- 44_pseudo.md, MOV's five rows (D12, D13; order by 90_conflicts.md C14): which MOV is which idiom. CLR comes before
BR, and NOP before BR. -/
def Obligations.MovIdiomRows : Prop :=
  ∀ (bw : Bit) (src dst : Operand) (p : Instr), recognize (.mov bw src dst) = some p ↔
    (Immediate 0 src ∧ p = .clr bw dst) ∨
    (src.reg = dst.reg ∧ src.mode = .direct ∧ dst.mode = .direct ∧ p = .nop bw) ∨
    (src.reg = 1 ∧ src.mode = .autoinc ∧ dst.reg = 0 ∧ p = .ret bw) ∨
    (src.reg = 1 ∧ src.mode = .autoinc ∧ dst.reg ≠ 0 ∧ p = .pop bw dst) ∨
    (dst.reg = 0 ∧ dst.mode = .direct ∧ ¬ Immediate 0 src ∧ ¬ (src.reg = 0 ∧ src.mode = .direct) ∧
      ¬ (src.reg = 1 ∧ src.mode = .autoinc) ∧ p = .br bw src)

/-- 44_pseudo.md, the eight flag idioms (D12, D13): BIC and BIS of an immediate 1, 2, 4 or 8 on register 2, in any
destination mode. That the status register is register 2 is the spec's decision D6 (R32), from general knowledge
(log 14). -/
def Obligations.FlagIdiomRows : Prop :=
  ∀ (bw : Bit) (src dst : Operand) (p : Instr),
    (recognize (.bic bw src dst) = some p ↔ dst.reg = 2 ∧
      ((Immediate 1 src ∧ p = .clrc bw) ∨ (Immediate 2 src ∧ p = .clrz bw) ∨
       (Immediate 4 src ∧ p = .clrn bw) ∨ (Immediate 8 src ∧ p = .dint bw))) ∧
    (recognize (.bis bw src dst) = some p ↔ dst.reg = 2 ∧
      ((Immediate 1 src ∧ p = .setc bw) ∨ (Immediate 2 src ∧ p = .setz bw) ∨
       (Immediate 4 src ∧ p = .setn bw) ∨ (Immediate 8 src ∧ p = .eint bw)))

/-- 44_pseudo.md, the rows of ADD, ADDC, CMP and SUB (D12, D13; C8 for ADDC), and that no other instruction has a row: an
ADD of 1 to register 0 is RLA after the normalizer, so INC needs another register. -/
def Obligations.ArithmeticIdiomRows : Prop :=
  ∀ (bw : Bit) (src dst : Operand) (p : Instr),
    (recognize (.add bw src dst) = some p ↔
      (src.reg = dst.reg ∧ p = .rla bw dst) ∨ (Immediate 1 src ∧ dst.reg ≠ 0 ∧ p = .inc bw dst)) ∧
    (recognize (.addc bw src dst) = some p ↔ src.reg = dst.reg ∧ p = .rla bw dst) ∧
    (recognize (.cmp bw src dst) = some p ↔ Immediate 0 src ∧ p = .tst bw dst) ∧
    (recognize (.sub bw src dst) = some p ↔ Immediate 1 src ∧ p = .dec bw dst) ∧
    (∀ op, recognize (mkDouble op bw src dst) ≠ none →
      op = .mov ∨ op = .bic ∨ op = .bis ∨ op = .add ∨ op = .addc ∨ op = .cmp ∨ op = .sub) ∧
    (∀ i, asDouble i = none → recognize i = none)

/-- 44_pseudo.md section 3 (D11, D14): what the recognizer can give. A match is a pseudo value with one of seventeen
opcodes, never RLC, INV, DECD, INCD, ADC, DADC or SBC, and it carries the size flag of the instruction it matched. -/
def Obligations.SevenPseudoOpcodesAreNeverProduced : Prop :=
  ∀ (op : DOp) (bw : Bit) (src dst : Operand) (p : Instr), recognize (mkDouble op bw src dst) = some p →
    ∃ code o, asPseudo p = some (code, bw, o) ∧
      popCode code ∉ [13, 14, 18, 20, 21, 22, 23] ∧ (o = none ∨ o = some dst ∨ (code = .br ∧ o = some src))

/-! ## Noninterference and runs -/

/-- 45_flow_walker.md section 1, `LINEAR` mode (D34): a `LINEAR` step neither reads nor writes VIS, BQ or CS. -/
def Obligations.LinearIgnoresTheReachabilityMemories : Prop :=
  ∀ (s t : State) (v : List Nat) (q c : List Int), s.cfg.mode = .linear → step s = .next t →
    step { s with vis := v, bq := q, cs := c } = .next { t with vis := v, bq := q, cs := c }

/-- 10_state.md sections 9 and 10 (D32): no step reads `W[0]`. The field that holds it is the model's (log 3). -/
def Obligations.SentinelIsNeverRead : Prop :=
  ∀ (s t : State) (w : Word), step s = .next t → step { s with sentinel := w } = .next { t with sentinel := w }

/-- R289: a `LINEAR` run ends (in `LINEAR` mode the walker follows nothing, D34). From a state with its cursor in range, a
clause of the invariant, at most `N + 2 - idx` steps lead to a terminal state; from the start that is `N + 1`. -/
def Obligations.LinearRunTerminates : Prop :=
  ∀ s : State, s.CursorInRange → s.cfg.mode = .linear →
    ∃ k t, k ≤ s.n + 2 - s.idx ∧ Host.Core.run core k s = .next t ∧ t.status ≠ .run

/-- 45_flow_walker.md section 3 and 60_exceptions.md section 4 (D29): terminal states, faults among them, persist
through any number of steps. That a step answers the state unchanged is the model's choice (log 2). -/
def Obligations.TerminalStatesPersist : Prop :=
  ∀ (k : Nat) (s : State), s.status ≠ .run → Host.Core.run core k s = .next s

/-- 45_flow_walker.md section 2, RET's fall-back: a stacked return address is always one `resume` accepts (R278: a clause
of the invariant, which every step keeps), so from a state of which that holds such a RET step raises no BAD_TARGET and
the walk goes on at that address. -/
def Obligations.StackedReturnNeverFaults : Prop :=
  ∀ (s : State) (bw : Bit) (words : List Word) (r : Int) (rest : List Int), (∀ a ∈ s.cs, ValidTarget s.n a) →
    s.status = .run →
    s.cfg.mode = .flow → fetch s = .instr (.ret bw) words → (∀ x ∈ s.bq, SeenBy s x) → s.cs = r :: rest →
    ∃ t, step s = .next t ∧ t.status = .run ∧ addr t.idx = r ∧ t.cs = rest ∧ t.bq = []

/-! ## Addresses and load -/

/-- 10_state.md section 3 (D18 extends the domain to the end marker): address and index are inverse on the stream. -/
def Obligations.AddressAndIndexAreInverse : Prop :=
  ∀ n : Nat,
    (∀ a : Int, a % 2 = 0 → 0 ≤ a → a ≤ 2 * (n : Int) → addr (index a) = a ∧ 1 ≤ index a ∧ index a ≤ n + 1) ∧
    (∀ i : Nat, 1 ≤ i → i ≤ n + 1 → index (addr i) = i ∧ addr i % 2 = 0 ∧ 0 ≤ addr i ∧ addr i ≤ 2 * (n : Int))

/-- R63: of an even input that fits, word `i` is `b[2(i-1)] + 256*b[2(i-1)+1]`, read by index or by address, and there is
no word outside 1 to N. -/
def Obligations.LoadAssemblesLittleEndianWords : Prop :=
  ∀ (cfg : Config) (b : List Byte), b.length % 2 = 0 → b.length ≤ 2 * cfg.nmax →
    ∃ s : State, launch cfg b = .next s ∧ s.n = b.length / 2 ∧
      (∀ i, 1 ≤ i → i ≤ s.n → ∃ w lo hi, readWord s i = some w ∧ memRead s (addr i) = some w ∧
        b[2 * (i - 1)]? = some lo ∧ b[2 * (i - 1) + 1]? = some hi ∧ w.toNat = lo.toNat + 256 * hi.toNat) ∧
      (∀ i, i = 0 ∨ s.n < i → readWord s i = none)

/-- 70_reset_and_hazards.md section 1 (D25, D36): after a launch with an even input that fits, the parameters are the
host's and every state element but the word memory has its reset value. The sentinel's value is not the spec's (log 3),
so none is stated. That no record is there is the model's (log 9): the records are no element of R31 or R46. -/
def Obligations.LaunchLeavesTheResetValues : Prop :=
  ∀ (cfg : Config) (b : List Byte), b.length % 2 = 0 → b.length ≤ 2 * cfg.nmax →
    ∃ s : State, launch cfg b = .next s ∧ s.cfg = cfg ∧ s.n = b.length / 2 ∧
      s.idx = 1 ∧ s.wu = [] ∧ s.status = .run ∧ s.cause = .none ∧ s.faultAddr = 0 ∧ s.faultInfo = 0 ∧
      s.vis = [] ∧ s.bq = [] ∧ s.cs = [] ∧ s.records = []

/-- 70_reset_and_hazards.md section 1 (D27, D36): an input that does not fit is a refused launch; an odd one that fits
leaves FAULT with MALFORMED_LENGTH, its length in FAULT_INFO, and nothing loaded. That an input both odd and too long is a
refused launch is the model's reading (log 16); that a step on the fault state answers it unchanged is the model's choice
among D29's two (log 2). -/
def Obligations.LoaderRefusals : Prop :=
  ∀ (cfg : Config) (b : List Byte),
    (2 * cfg.nmax < b.length → launch cfg b = .refused .streamTooLong) ∧
    (b.length ≤ 2 * cfg.nmax → b.length % 2 = 1 →
      ∃ s, launch cfg b = .next s ∧ s.status = .fault ∧ s.cause = .malformedLength ∧ s.faultAddr = 0 ∧
        s.faultInfo = (b.length : Int) ∧ s.n = 0 ∧ s.idx = 1 ∧ (∀ i, readWord s i = none) ∧ step s = .next s)

/-- Words of each family and what the pipeline reads from them, as the spec writes them out: in 95_test_vectors.md parts 1
and 3, and in the examples of R134 (0x2A00), R152 (0x1095), R156 (0x1292), R187 (0xA495) and R192 (0xF0F2, also in part 4,
program P3). The opcode values and mode-table cells behind them are in part general knowledge (log 14). -/
def Obligations.WrittenOutWordsDecode : Prop :=
  resolve 0x3C02 [] = .ok (.jmp 2 6) 1 ∧
  resolve 0x2A00 [] = .ok (.jlo (-512) (-1022)) 1 ∧
  resolve 0x1095 [0x0004] = .ok (.swpb 0 ⟨5, .indexed, some 0x0004, none⟩) 2 ∧
  resolve 0x1292 [0x1234] = .ok (.call 0 ⟨2, .absolute, none, none⟩) 1 ∧
  resolve 0xA495 [0x0002, 0x0006] = .ok (.dadd 0 ⟨4, .indexed, some 0x0002, none⟩ ⟨5, .indexed, some 0x0006, none⟩) 3 ∧
  resolve 0xF0F2 [0x00FF, 0x0021] = .ok (.and 1 ⟨0, .autoinc, some 0x00FF, none⟩ ⟨2, .absolute, some 0x0021, none⟩) 3 ∧
  resolve 0x4225 [] = .ok (.mov 0 ⟨0, .autoinc, none, some 4⟩ ⟨5, .direct, none, none⟩) 1 ∧
  resolve 0x4130 [] = .ok (.ret 0) 1 ∧
  resolve 0xC392 [0x0200] = .ok (.clrc 0) 2 ∧
  resolve 0x5310 [] = .ok (.rla 0 ⟨0, .direct, none, none⟩) 1 ∧
  resolve 0x1380 [] = .ok .invalid 1 ∧
  resolve 0x4415 [] = .trunc 2
end

