-- ==== Sys2Proof/Laws/Tables.lean ====
section
/-! SUPPORT. The small lemmas of the opcode tables, the format builders and their views, the mode table, the normalizer
and the recognizer. -/

namespace Sys2Proof.Machine

/-! ## Opcode tables (30_encoding.md R86, R87, R88) -/

@[simp] theorem condOf_condCode (c : Cond) : condOf (condCode c) = c := by cases c <;> rfl

@[simp] theorem condCode_condOf (c : BitVec 3) : condCode (condOf c) = c := by revert c; decide

@[simp] theorem sopOf_sopCode (op : SOp) : sopOf (sopCode op) = some op := by cases op <;> rfl

@[simp] theorem dopOf_dopCode (op : DOp) : dopOf (dopCode op) = some op := by cases op <;> rfl

theorem sopCode_of_sopOf {c : BitVec 3} {op : SOp} (h : sopOf c = some op) : sopCode op = c := by
  revert c op; decide

theorem dopCode_of_dopOf {c : BitVec 4} {op : DOp} (h : dopOf c = some op) : dopCode op = c := by
  have : ∀ c : BitVec 4, ∀ op, dopOf c = some op → dopCode op = c := by
    intro c op; cases op <;> revert c <;> decide
  exact this c op h

/-! ## Formats and views (30_encoding.md R102) -/

@[simp] theorem asJump_mkJump (c : Cond) (off disp : Int) : asJump (mkJump c off disp) = some (c, off, disp) := by
  cases c <;> rfl
@[simp] theorem asJump_mkSingle (op : SOp) (bw : Bit) (o : Operand) : asJump (mkSingle op bw o) = none := by
  cases op <;> rfl
@[simp] theorem asJump_mkDouble (op : DOp) (bw : Bit) (s d : Operand) : asJump (mkDouble op bw s d) = none := by
  cases op <;> rfl
@[simp] theorem asSingle_mkJump (c : Cond) (off disp : Int) : asSingle (mkJump c off disp) = none := by
  cases c <;> rfl
@[simp] theorem asSingle_mkSingle (op : SOp) (bw : Bit) (o : Operand) :
    asSingle (mkSingle op bw o) = some (op, bw, o) := by cases op <;> rfl
@[simp] theorem asSingle_mkDouble (op : DOp) (bw : Bit) (s d : Operand) : asSingle (mkDouble op bw s d) = none := by
  cases op <;> rfl
@[simp] theorem asDouble_mkJump (c : Cond) (off disp : Int) : asDouble (mkJump c off disp) = none := by
  cases c <;> rfl
@[simp] theorem asDouble_mkSingle (op : SOp) (bw : Bit) (o : Operand) : asDouble (mkSingle op bw o) = none := by
  cases op <;> rfl
@[simp] theorem asDouble_mkDouble (op : DOp) (bw : Bit) (s d : Operand) :
    asDouble (mkDouble op bw s d) = some (op, bw, s, d) := by cases op <;> rfl

theorem eq_mkJump_of_asJump {i : Instr} {c : Cond} {off disp : Int} (h : asJump i = some (c, off, disp)) :
    i = mkJump c off disp := by
  cases i <;> simp [asJump] at h <;> obtain ⟨rfl, rfl, rfl⟩ := h <;> rfl

theorem eq_mkSingle_of_asSingle {i : Instr} {op : SOp} {bw : Bit} {o : Operand} (h : asSingle i = some (op, bw, o)) :
    i = mkSingle op bw o := by
  cases i <;> simp [asSingle] at h <;> obtain ⟨rfl, rfl, rfl⟩ := h <;> rfl

theorem eq_mkDouble_of_asDouble {i : Instr} {op : DOp} {bw : Bit} {s d : Operand}
    (h : asDouble i = some (op, bw, s, d)) : i = mkDouble op bw s d := by
  cases i <;> simp [asDouble] at h <;> obtain ⟨rfl, rfl, rfl, rfl⟩ := h <;> rfl

/-- A jump, a single-operand instruction, a double-operand one and `Invalid` are their own base. -/
@[simp] theorem base_mkDouble (op : DOp) (bw : Bit) (s d : Operand) : base (mkDouble op bw s d) = mkDouble op bw s d := by
  cases op <;> rfl

/-! ## Modes (30_encoding.md R89) -/

/-- Each register's mode table is one-to-one: the raw bits of the mode it gives are the raw bits looked up. -/
@[simp] theorem modeBits_modeTable (r : Reg) (m : BitVec 2) : modeBits (modeTable r m) = m := by
  revert r m; decide

@[simp] theorem modeBits_destMode (r : Reg) (a : Bit) : modeBits (destMode r a) = (0 : BitVec 1) ++ a := by
  simp [destMode]

theorem modeBits_destMode_lt (r : Reg) (a : Bit) : modeBits (destMode r a) < 2 := by
  rw [modeBits_destMode]; revert a; decide

@[simp] theorem setWidth_destMode (r : Reg) (a : Bit) : (modeBits (destMode r a)).setWidth 1 = a := by
  rw [modeBits_destMode]; revert a; decide

theorem destMode_setWidth {r : Reg} {m : Mode} (h1 : modeTable r (modeBits m) = m) (h2 : modeBits m < 2) :
    destMode r ((modeBits m).setWidth 1) = m := by
  have : ∀ b : BitVec 2, b < 2 → (0 : BitVec 1) ++ b.setWidth 1 = b := by decide
  rw [destMode, this _ h2, h1]

/-! ## Normalizer (43_normalizer.md R210 to R215) -/

@[simp] theorem normalize_mkJump (c : Cond) (off disp : Int) : normalizeInstr (mkJump c off disp) = mkJump c off disp := by
  simp [normalizeInstr]
@[simp] theorem normalize_mkSingle (op : SOp) (bw : Bit) (o : Operand) :
    normalizeInstr (mkSingle op bw o) = mkSingle op bw o := by simp [normalizeInstr]
@[simp] theorem normalize_mkDouble (op : DOp) (bw : Bit) (s d : Operand) :
    normalizeInstr (mkDouble op bw s d) = mkDouble op bw (normSrc s) d := by simp [normalizeInstr]
@[simp] theorem normalize_invalid : normalizeInstr .invalid = .invalid := rfl

theorem normSrc_of_const {o : Operand} {v : Int} (h : constValue o.mode = some v) : normSrc o = constSource v := by
  simp [normSrc, h, constSource]

theorem normSrc_of_not_const {o : Operand} (h : constValue o.mode = none) : normSrc o = o := by
  simp [normSrc, h]

/-! ## Recognizer (44_pseudo.md R230, R231) -/

@[simp] theorem final_mkJump (c : Cond) (off disp : Int) : final (mkJump c off disp) = mkJump c off disp := by
  simp [final, recognize]
@[simp] theorem final_mkSingle (op : SOp) (bw : Bit) (o : Operand) : final (mkSingle op bw o) = mkSingle op bw o := by
  simp [final, recognize]
@[simp] theorem final_invalid : final .invalid = .invalid := rfl

theorem recognize_of_asDouble_none {i : Instr} (h : asDouble i = none) : recognize i = none := by
  simp [recognize, h]

end Sys2Proof.Machine
end

