-- ==== Sys2Proof/Laws/Decode.lean ====
section
/-! SUPPORT. The fields of the words the encoder writes, and what the decoder does on each format
(30_encoding.md R81 to R103). -/

namespace Sys2Proof

open Machine

/-! ## Field laws -/

/-- The top four bits lie inside the flavor's six. -/
theorem field_12_4_of_10_6 (w : Word) : field w 12 4 = (field w 10 6).extractLsb' 2 4 := by
  unfold field; ext i hi
  simp only [BitVec.getElem_extractLsb', BitVec.getLsbD_extractLsb']
  rw [show (decide (2 + i < 6)) = true by simp; omega]; simp only [Bool.true_and]; congr 1; omega

/-- The top three bits lie inside the top four. -/
theorem field_13_3_of_12_4 (w : Word) : field w 13 3 = (field w 12 4).extractLsb' 1 3 := by
  unfold field; ext i hi
  simp only [BitVec.getElem_extractLsb', BitVec.getLsbD_extractLsb']
  rw [show (decide (1 + i < 4)) = true by simp; omega]; simp only [Bool.true_and]; congr 1; omega

theorem jumpWord_fields (c : Cond) (off : Int) :
    field (jumpWord c off) 13 3 = 0b001 ∧ field (jumpWord c off) 10 3 = condCode c ∧
    field (jumpWord c off) 0 10 = BitVec.ofInt 10 off := by
  unfold field jumpWord
  refine ⟨?_, ?_, ?_⟩
  all_goals
    repeat first
      | rw [BitVec.extractLsb'_append_eq_of_le (by decide)]
      | rw [BitVec.extractLsb'_append_eq_of_add_le (by decide)]
    exact BitVec.extractLsb'_eq_self

theorem singleWord_fields (op : SOp) (bw : Bit) (o : Operand) :
    field (singleWord op bw o) 10 6 = 0b000100 ∧ field (singleWord op bw o) 7 3 = sopCode op ∧
    field (singleWord op bw o) 6 1 = bw ∧ field (singleWord op bw o) 4 2 = modeBits o.mode ∧
    field (singleWord op bw o) 0 4 = o.reg := by
  unfold field singleWord
  refine ⟨?_, ?_, ?_, ?_, ?_⟩
  all_goals
    repeat first
      | rw [BitVec.extractLsb'_append_eq_of_le (by decide)]
      | rw [BitVec.extractLsb'_append_eq_of_add_le (by decide)]
    exact BitVec.extractLsb'_eq_self

theorem doubleWord_fields (op : DOp) (bw : Bit) (s d : Operand) :
    field (doubleWord op bw s d) 12 4 = dopCode op ∧ field (doubleWord op bw s d) 8 4 = sourceReg s ∧
    field (doubleWord op bw s d) 7 1 = (modeBits d.mode).setWidth 1 ∧ field (doubleWord op bw s d) 6 1 = bw ∧
    field (doubleWord op bw s d) 4 2 = sourceBits s ∧ field (doubleWord op bw s d) 0 4 = d.reg := by
  unfold field doubleWord
  refine ⟨?_, ?_, ?_, ?_, ?_, ?_⟩
  all_goals
    repeat first
      | rw [BitVec.extractLsb'_append_eq_of_le (by decide)]
      | rw [BitVec.extractLsb'_append_eq_of_add_le (by decide)]
    exact BitVec.extractLsb'_eq_self

/-! ## Flavors of encoded words -/

/-- R81, R88: a word whose top four bits are an opcode of the double-operand table is a double-operand word. -/
theorem flavor_of_dopOf {w : Word} {op : DOp} (h : dopOf (field w 12 4) = some op) : flavor w = .double := by
  have key : ∀ c : BitVec 4, dopOf c ≠ none → c ≠ 1 ∧ c.extractLsb' 1 3 ≠ 1 := by decide
  have hc := key _ (by rw [h]; simp)
  unfold flavor
  rw [if_neg, if_neg]
  · rw [field_13_3_of_12_4]; exact hc.2
  · intro h6; rw [field_12_4_of_10_6, h6] at hc; exact hc.1 (by decide)

theorem flavor_jumpWord (c : Cond) (off : Int) : flavor (jumpWord c off) = .jump := by
  have h := jumpWord_fields c off
  unfold flavor
  rw [if_neg, if_pos h.1]
  intro h6
  have : field (jumpWord c off) 13 3 = (0b000100 : BitVec 6).extractLsb' 3 3 := by
    rw [field_13_3_of_12_4, field_12_4_of_10_6, h6]; decide
  rw [h.1] at this; revert this; decide

theorem flavor_singleWord (op : SOp) (bw : Bit) (o : Operand) : flavor (singleWord op bw o) = .single := by
  unfold flavor; rw [if_pos (singleWord_fields op bw o).1]

theorem flavor_doubleWord (op : DOp) (bw : Bit) (s d : Operand) : flavor (doubleWord op bw s d) = .double :=
  flavor_of_dopOf (op := op) (by rw [(doubleWord_fields op bw s d).1]; simp)

/-! ## The decoder, format by format -/

theorem decode_of_jump {w0 : Word} (exts : List Word) (h : flavor w0 = .jump) : decode w0 exts = decodeJump w0 := by
  simp [decode, h]

theorem decode_of_single {w0 : Word} (exts : List Word) (h : flavor w0 = .single) :
    decode w0 exts = decodeSingle w0 exts := by simp [decode, h]

theorem decode_of_double {w0 : Word} (exts : List Word) (h : flavor w0 = .double) :
    decode w0 exts = decodeDouble w0 exts := by simp [decode, h]

/-- The offset of a jump comes back from its ten bits (R98). -/
theorem sext10_ofInt {off : Int} (h1 : -512 ≤ off) (h2 : off ≤ 511) : sext10 (BitVec.ofInt 10 off) = off := by
  unfold sext10
  rw [BitVec.toInt_ofInt, Int.bmod_eq_of_le (by omega) (by omega)]

theorem sext10_bounds (v : BitVec 10) : -512 ≤ sext10 v ∧ sext10 v ≤ 511 := by
  unfold sext10
  have h1 := @BitVec.le_toInt 10 v
  have h2 := @BitVec.toInt_lt 10 v
  omega

@[simp] theorem ofInt_sext10 (v : BitVec 10) : BitVec.ofInt 10 (sext10 v) = v := BitVec.ofInt_toInt

end Sys2Proof
end

