-- ==== Sys2Proof/Laws/State.lean ====
section
/-! SUPPORT. One lemma per field of `State` and per update of it, each true by unfolding the update once, so that no
later proof unfolds a record update. -/

namespace Sys2Proof.Machine

variable (s : State)

@[simp] theorem consume_cfg (words : List Word) : (consume words s).cfg = s.cfg := rfl
@[simp] theorem consume_n (words : List Word) : (consume words s).n = s.n := rfl
@[simp] theorem consume_mem (words : List Word) : (consume words s).mem = s.mem := rfl
@[simp] theorem consume_sentinel (words : List Word) : (consume words s).sentinel = s.sentinel := rfl
@[simp] theorem consume_idx (words : List Word) : (consume words s).idx = s.idx := rfl
@[simp] theorem consume_wu (words : List Word) : (consume words s).wu = words := rfl
@[simp] theorem consume_status (words : List Word) : (consume words s).status = s.status := rfl
@[simp] theorem consume_cause (words : List Word) : (consume words s).cause = s.cause := rfl
@[simp] theorem consume_faultAddr (words : List Word) : (consume words s).faultAddr = s.faultAddr := rfl
@[simp] theorem consume_faultInfo (words : List Word) : (consume words s).faultInfo = s.faultInfo := rfl
@[simp] theorem consume_vis (words : List Word) : (consume words s).vis = s.vis := rfl
@[simp] theorem consume_bq (words : List Word) : (consume words s).bq = s.bq := rfl
@[simp] theorem consume_cs (words : List Word) : (consume words s).cs = s.cs := rfl
@[simp] theorem consume_records (words : List Word) : (consume words s).records = s.records := rfl

@[simp] theorem emit_cfg (fin : Instr) : (emit fin s).cfg = s.cfg := rfl
@[simp] theorem emit_n (fin : Instr) : (emit fin s).n = s.n := rfl
@[simp] theorem emit_mem (fin : Instr) : (emit fin s).mem = s.mem := rfl
@[simp] theorem emit_sentinel (fin : Instr) : (emit fin s).sentinel = s.sentinel := rfl
@[simp] theorem emit_idx (fin : Instr) : (emit fin s).idx = s.idx := rfl
@[simp] theorem emit_wu (fin : Instr) : (emit fin s).wu = s.wu := rfl
@[simp] theorem emit_status (fin : Instr) : (emit fin s).status = s.status := rfl
@[simp] theorem emit_cause (fin : Instr) : (emit fin s).cause = s.cause := rfl
@[simp] theorem emit_faultAddr (fin : Instr) : (emit fin s).faultAddr = s.faultAddr := rfl
@[simp] theorem emit_faultInfo (fin : Instr) : (emit fin s).faultInfo = s.faultInfo := rfl
@[simp] theorem emit_vis (fin : Instr) : (emit fin s).vis = s.vis := rfl
@[simp] theorem emit_bq (fin : Instr) : (emit fin s).bq = s.bq := rfl
@[simp] theorem emit_cs (fin : Instr) : (emit fin s).cs = s.cs := rfl
@[simp] theorem emit_records (fin : Instr) : (emit fin s).records = s.records ++ [{ start := addr s.idx, len := s.wu.length, words := s.wu, instr := fin }] := rfl

@[simp] theorem markVisited_cfg : (markVisited s).cfg = s.cfg := rfl
@[simp] theorem markVisited_n : (markVisited s).n = s.n := rfl
@[simp] theorem markVisited_mem : (markVisited s).mem = s.mem := rfl
@[simp] theorem markVisited_sentinel : (markVisited s).sentinel = s.sentinel := rfl
@[simp] theorem markVisited_idx : (markVisited s).idx = s.idx := rfl
@[simp] theorem markVisited_wu : (markVisited s).wu = s.wu := rfl
@[simp] theorem markVisited_status : (markVisited s).status = s.status := rfl
@[simp] theorem markVisited_cause : (markVisited s).cause = s.cause := rfl
@[simp] theorem markVisited_faultAddr : (markVisited s).faultAddr = s.faultAddr := rfl
@[simp] theorem markVisited_faultInfo : (markVisited s).faultInfo = s.faultInfo := rfl
@[simp] theorem markVisited_vis : (markVisited s).vis = visInsert s.idx s.vis := rfl
@[simp] theorem markVisited_bq : (markVisited s).bq = s.bq := rfl
@[simp] theorem markVisited_cs : (markVisited s).cs = s.cs := rfl
@[simp] theorem markVisited_records : (markVisited s).records = s.records := rfl

@[simp] theorem raiseFault_cfg (c : Cause) (info : Int) : (raiseFault c info s).cfg = s.cfg := rfl
@[simp] theorem raiseFault_n (c : Cause) (info : Int) : (raiseFault c info s).n = s.n := rfl
@[simp] theorem raiseFault_mem (c : Cause) (info : Int) : (raiseFault c info s).mem = s.mem := rfl
@[simp] theorem raiseFault_sentinel (c : Cause) (info : Int) : (raiseFault c info s).sentinel = s.sentinel := rfl
@[simp] theorem raiseFault_idx (c : Cause) (info : Int) : (raiseFault c info s).idx = s.idx := rfl
@[simp] theorem raiseFault_wu (c : Cause) (info : Int) : (raiseFault c info s).wu = s.wu := rfl
@[simp] theorem raiseFault_status (c : Cause) (info : Int) : (raiseFault c info s).status = .fault := rfl
@[simp] theorem raiseFault_cause (c : Cause) (info : Int) : (raiseFault c info s).cause = c := rfl
@[simp] theorem raiseFault_faultAddr (c : Cause) (info : Int) : (raiseFault c info s).faultAddr = addr s.idx := rfl
@[simp] theorem raiseFault_faultInfo (c : Cause) (info : Int) : (raiseFault c info s).faultInfo = info := rfl
@[simp] theorem raiseFault_vis (c : Cause) (info : Int) : (raiseFault c info s).vis = s.vis := rfl
@[simp] theorem raiseFault_bq (c : Cause) (info : Int) : (raiseFault c info s).bq = s.bq := rfl
@[simp] theorem raiseFault_cs (c : Cause) (info : Int) : (raiseFault c info s).cs = s.cs := rfl
@[simp] theorem raiseFault_records (c : Cause) (info : Int) : (raiseFault c info s).records = s.records := rfl

@[simp] theorem stop_cfg (st : Status) : (stop st s).cfg = s.cfg := rfl
@[simp] theorem stop_n (st : Status) : (stop st s).n = s.n := rfl
@[simp] theorem stop_mem (st : Status) : (stop st s).mem = s.mem := rfl
@[simp] theorem stop_sentinel (st : Status) : (stop st s).sentinel = s.sentinel := rfl
@[simp] theorem stop_idx (st : Status) : (stop st s).idx = s.idx := rfl
@[simp] theorem stop_wu (st : Status) : (stop st s).wu = s.wu := rfl
@[simp] theorem stop_status (st : Status) : (stop st s).status = st := rfl
@[simp] theorem stop_cause (st : Status) : (stop st s).cause = s.cause := rfl
@[simp] theorem stop_faultAddr (st : Status) : (stop st s).faultAddr = s.faultAddr := rfl
@[simp] theorem stop_faultInfo (st : Status) : (stop st s).faultInfo = s.faultInfo := rfl
@[simp] theorem stop_vis (st : Status) : (stop st s).vis = s.vis := rfl
@[simp] theorem stop_bq (st : Status) : (stop st s).bq = s.bq := rfl
@[simp] theorem stop_cs (st : Status) : (stop st s).cs = s.cs := rfl
@[simp] theorem stop_records (st : Status) : (stop st s).records = s.records := rfl

@[simp] theorem moveTo_cfg (i : Nat) : (moveTo i s).cfg = s.cfg := rfl
@[simp] theorem moveTo_n (i : Nat) : (moveTo i s).n = s.n := rfl
@[simp] theorem moveTo_mem (i : Nat) : (moveTo i s).mem = s.mem := rfl
@[simp] theorem moveTo_sentinel (i : Nat) : (moveTo i s).sentinel = s.sentinel := rfl
@[simp] theorem moveTo_idx (i : Nat) : (moveTo i s).idx = i := rfl
@[simp] theorem moveTo_wu (i : Nat) : (moveTo i s).wu = s.wu := rfl
@[simp] theorem moveTo_status (i : Nat) : (moveTo i s).status = s.status := rfl
@[simp] theorem moveTo_cause (i : Nat) : (moveTo i s).cause = s.cause := rfl
@[simp] theorem moveTo_faultAddr (i : Nat) : (moveTo i s).faultAddr = s.faultAddr := rfl
@[simp] theorem moveTo_faultInfo (i : Nat) : (moveTo i s).faultInfo = s.faultInfo := rfl
@[simp] theorem moveTo_vis (i : Nat) : (moveTo i s).vis = s.vis := rfl
@[simp] theorem moveTo_bq (i : Nat) : (moveTo i s).bq = s.bq := rfl
@[simp] theorem moveTo_cs (i : Nat) : (moveTo i s).cs = s.cs := rfl
@[simp] theorem moveTo_records (i : Nat) : (moveTo i s).records = s.records := rfl

@[simp] theorem setQueue_cfg (q : List Int) : (setQueue q s).cfg = s.cfg := rfl
@[simp] theorem setQueue_n (q : List Int) : (setQueue q s).n = s.n := rfl
@[simp] theorem setQueue_mem (q : List Int) : (setQueue q s).mem = s.mem := rfl
@[simp] theorem setQueue_sentinel (q : List Int) : (setQueue q s).sentinel = s.sentinel := rfl
@[simp] theorem setQueue_idx (q : List Int) : (setQueue q s).idx = s.idx := rfl
@[simp] theorem setQueue_wu (q : List Int) : (setQueue q s).wu = s.wu := rfl
@[simp] theorem setQueue_status (q : List Int) : (setQueue q s).status = s.status := rfl
@[simp] theorem setQueue_cause (q : List Int) : (setQueue q s).cause = s.cause := rfl
@[simp] theorem setQueue_faultAddr (q : List Int) : (setQueue q s).faultAddr = s.faultAddr := rfl
@[simp] theorem setQueue_faultInfo (q : List Int) : (setQueue q s).faultInfo = s.faultInfo := rfl
@[simp] theorem setQueue_vis (q : List Int) : (setQueue q s).vis = s.vis := rfl
@[simp] theorem setQueue_bq (q : List Int) : (setQueue q s).bq = q := rfl
@[simp] theorem setQueue_cs (q : List Int) : (setQueue q s).cs = s.cs := rfl
@[simp] theorem setQueue_records (q : List Int) : (setQueue q s).records = s.records := rfl

@[simp] theorem setStack_cfg (c : List Int) : (setStack c s).cfg = s.cfg := rfl
@[simp] theorem setStack_n (c : List Int) : (setStack c s).n = s.n := rfl
@[simp] theorem setStack_mem (c : List Int) : (setStack c s).mem = s.mem := rfl
@[simp] theorem setStack_sentinel (c : List Int) : (setStack c s).sentinel = s.sentinel := rfl
@[simp] theorem setStack_idx (c : List Int) : (setStack c s).idx = s.idx := rfl
@[simp] theorem setStack_wu (c : List Int) : (setStack c s).wu = s.wu := rfl
@[simp] theorem setStack_status (c : List Int) : (setStack c s).status = s.status := rfl
@[simp] theorem setStack_cause (c : List Int) : (setStack c s).cause = s.cause := rfl
@[simp] theorem setStack_faultAddr (c : List Int) : (setStack c s).faultAddr = s.faultAddr := rfl
@[simp] theorem setStack_faultInfo (c : List Int) : (setStack c s).faultInfo = s.faultInfo := rfl
@[simp] theorem setStack_vis (c : List Int) : (setStack c s).vis = s.vis := rfl
@[simp] theorem setStack_bq (c : List Int) : (setStack c s).bq = s.bq := rfl
@[simp] theorem setStack_cs (c : List Int) : (setStack c s).cs = c := rfl
@[simp] theorem setStack_records (c : List Int) : (setStack c s).records = s.records := rfl

end Sys2Proof.Machine
end

