-- ==== Sys2Proof/Laws/Memory.lean ====
section
/-! SUPPORT. The laws of the word memory: reading after a write, the canonical form, and what a load leaves
(20_memory.md R60 to R63; 70_reset_and_hazards.md R340). -/

namespace Sys2Proof.Machine

/-- A byte below every listed address is unlisted. -/
theorem readByte_of_lt {m : List Host.Cell} {a : Nat} (h : ∀ c ∈ m, a < c.1) : readByte m a = unlistedByte := by
  induction m with
  | nil => rfl
  | cons c m ih =>
    have hc : a < c.1 := h c (by simp)
    have : c.1 ≠ a := by omega
    simp [readByte, this, ih (fun d hd => h d (by simp [hd]))]

/-- The canonical form of a tail. -/
theorem Memory.wf_tail {c : Host.Cell} {m : List Host.Cell} (h : Memory.wf (c :: m)) : Memory.wf m :=
  ⟨h.1.of_cons, fun d hd => h.2 d (by simp [hd])⟩

/-- The head of a canonical memory lies below the rest. -/
theorem Memory.wf_head_lt {c : Host.Cell} {m : List Host.Cell} (h : Memory.wf (c :: m)) : ∀ d ∈ m, c.1 < d.1 :=
  (List.pairwise_cons.mp h.1).1

theorem Memory.wf_cons {c : Host.Cell} {m : List Host.Cell} (hv : c.2 ≠ unlistedByte) (hlt : ∀ d ∈ m, c.1 < d.1)
    (h : Memory.wf m) : Memory.wf (c :: m) := by
  refine ⟨List.pairwise_cons.mpr ⟨hlt, h.1⟩, ?_⟩
  intro d hd
  rcases List.mem_cons.mp hd with rfl | hd
  · exact hv
  · exact h.2 d hd

/-- What is listed after a write was listed before or is the written byte. -/
theorem mem_writeByte {m : List Host.Cell} {a : Nat} {v : Byte} {c : Host.Cell} (h : c ∈ writeByte m a v) :
    c ∈ m ∨ c = (a, v) := by
  induction m with
  | nil =>
    by_cases hv : v = unlistedByte <;> simp [writeByte, hv] at h
    exact .inr h
  | cons d m ih =>
    obtain ⟨b, u⟩ := d
    simp only [writeByte] at h
    split_ifs at h <;> simp only [List.mem_cons] at h ⊢ <;> tauto

/-- A write keeps the canonical form. -/
theorem writeByte_wf {m : List Host.Cell} (a : Nat) (v : Byte) (h : Memory.wf m) : Memory.wf (writeByte m a v) := by
  induction m with
  | nil =>
    by_cases hv : v = unlistedByte <;> simp [writeByte, hv, Memory.wf]
  | cons c m ih =>
    obtain ⟨b, u⟩ := c
    have ht := Memory.wf_tail h
    have hlt := Memory.wf_head_lt h
    have hu : u ≠ unlistedByte := h.2 (b, u) (by simp)
    simp only [writeByte]
    split_ifs with h1 h2 h3 h4
    · exact h
    · refine Memory.wf_cons h2 ?_ h
      intro d hd
      rcases List.mem_cons.mp hd with rfl | hd
      · exact h1
      · exact lt_trans h1 (hlt d hd)
    · exact ht
    · subst h3; exact Memory.wf_cons h4 hlt ht
    · refine Memory.wf_cons hu ?_ (ih ht)
      intro d hd
      rcases mem_writeByte hd with hd | rfl
      · exact hlt d hd
      · simp only; omega

/-- A read after a write: the written byte at its address, the old byte everywhere else. -/
theorem readByte_writeByte {m : List Host.Cell} (a b : Nat) (v : Byte) (h : Memory.wf m) :
    readByte (writeByte m a v) b = if a = b then v else readByte m b := by
  induction m with
  | nil =>
    by_cases hv : v = unlistedByte <;> by_cases hab : a = b <;> simp [writeByte, readByte, hv, hab]
  | cons c m ih =>
    obtain ⟨x, u⟩ := c
    have ht := Memory.wf_tail h
    have hlt : ∀ d ∈ m, x < d.1 := Memory.wf_head_lt h
    by_cases h1 : a < x
    · by_cases h2 : v = unlistedByte
      · by_cases h3 : a = b
        · subst h3
          have hx : x ≠ a := by omega
          simp [writeByte, readByte, h1, h2, hx, readByte_of_lt (m := m) (a := a) (fun d hd => lt_trans h1 (hlt d hd))]
        · simp [writeByte, h1, h2, h3]
      · simp [writeByte, readByte, h1, h2]
    · by_cases h3 : a = x
      · subst h3
        by_cases h2 : v = unlistedByte
        · by_cases h4 : a = b
          · subst h4
            simp [writeByte, h2, readByte_of_lt hlt]
          · simp [writeByte, readByte, h2, h4]
        · by_cases h4 : a = b <;> simp [writeByte, readByte, h2, h4]
      · by_cases h4 : x = b
        · subst h4
          simp [writeByte, readByte, h1, h3]
        · simp [writeByte, readByte, h1, h3, h4, ih ht]

/-- Bytes written in a row keep the canonical form. -/
theorem writeBytes_wf {m : List Host.Cell} (a : Nat) (vs : List Byte) (h : Memory.wf m) :
    Memory.wf (writeBytes m a vs) := by
  induction vs generalizing m a with
  | nil => exact h
  | cons v vs ih => exact ih _ (writeByte_wf a v h)

/-- A loaded memory lists addresses from its start to its end only. -/
theorem loadBytes_bounds {b : List Byte} {a : Nat} : ∀ c ∈ loadBytes b a, a ≤ c.1 ∧ c.1 < a + b.length := by
  induction b generalizing a with
  | nil => simp [loadBytes]
  | cons v b ih =>
    intro c hc
    simp only [loadBytes] at hc
    split_ifs at hc
    · have := ih c hc; simp; omega
    · rcases List.mem_cons.mp hc with rfl | hc
      · simp
      · have := ih c hc; simp; omega

/-- A load gives a memory in canonical form. -/
theorem loadBytes_wf (b : List Byte) (a : Nat) : Memory.wf (loadBytes b a) := by
  induction b generalizing a with
  | nil => simp [loadBytes, Memory.wf]
  | cons v b ih =>
    simp only [loadBytes]
    split_ifs with hv
    · exact ih _
    · exact Memory.wf_cons hv (fun d hd => by have := loadBytes_bounds d hd; simp only; omega) (ih _)

/-- A loaded byte reads back; every other address is unlisted. -/
theorem readByte_loadBytes (b : List Byte) (a i : Nat) :
    readByte (loadBytes b a) i = if h : a ≤ i ∧ i - a < b.length then b[i - a]'h.2 else unlistedByte := by
  induction b generalizing a with
  | nil => simp [loadBytes, readByte]
  | cons v b ih =>
    have key : readByte (loadBytes (v :: b) a) i = if a = i then v else readByte (loadBytes b (a + 1)) i := by
      simp only [loadBytes]
      split_ifs with hv hai hai
      · subst hai
        rw [readByte_of_lt]
        · exact hv.symm
        · intro d hd; have := loadBytes_bounds d hd; omega
      · rfl
      · simp [readByte, hai]
      · simp [readByte, hai]
    rw [key, ih]
    by_cases hai : a = i
    · subst hai; simp
    · by_cases h1 : a + 1 ≤ i ∧ i - (a + 1) < b.length
      · have h2 : a ≤ i ∧ i - a < (v :: b).length := by simp; omega
        rw [if_neg hai, dif_pos h1, dif_pos h2]
        have : i - a = (i - (a + 1)) + 1 := by omega
        simp [this]
      · have h2 : ¬ (a ≤ i ∧ i - a < (v :: b).length) := by simp; omega
        rw [if_neg hai, dif_neg h1, dif_neg h2]

/-- `W[i]` exists exactly for the indices 1 to N (R47, R60). -/
theorem readWord_isSome (s : State) (i : Nat) : (readWord s i).isSome = true ↔ 1 ≤ i ∧ i ≤ s.n := by
  unfold readWord; split_ifs with h <;> simp [h]

end Sys2Proof.Machine
end

