-- ==== Sys2Proof/Laws/Ops.lean ====
section
/-! SUPPORT. For each shared operation, once, everything it can do; later proofs cite these and do not unfold it. -/

namespace Sys2Proof.Machine

/-! ## Addresses (10_state.md R34) -/

theorem addr_index {t : Int} (he : t % 2 = 0) (h0 : 0 ≤ t) : addr (index t) = t := by
  unfold addr index; omega

theorem index_addr {i : Nat} (h : 1 ≤ i) : index (addr i) = i := by
  unfold addr index; omega

theorem addr_even (i : Nat) : addr i % 2 = 0 := by unfold addr; omega

theorem addr_nonneg {i : Nat} (h : 1 ≤ i) : 0 ≤ addr i := by unfold addr; omega

theorem index_pos {t : Int} (h0 : 0 ≤ t) : 1 ≤ index t := by unfold index; omega

theorem index_le {n : Nat} {t : Int} (h : t ≤ 2 * (n : Int)) : index t ≤ n + 1 := by unfold index; omega

/-! ## The visited set (10_state.md R43) -/

@[simp] theorem mem_visInsert {i j : Nat} {l : List Nat} : j ∈ visInsert i l ↔ j = i ∨ j ∈ l := by
  induction l with
  | nil => simp [visInsert]
  | cons k r ih =>
    simp only [visInsert]
    split_ifs with h1 h2
    · simp
    · subst h2; simp
    · simp [ih]; tauto

theorem visInsert_rising {i : Nat} {l : List Nat} (h : l.Pairwise (· < ·)) : (visInsert i l).Pairwise (· < ·) := by
  induction l with
  | nil => simp [visInsert]
  | cons k r ih =>
    obtain ⟨hk, hr⟩ := List.pairwise_cons.mp h
    simp only [visInsert]
    split_ifs with h1 h2
    · refine List.pairwise_cons.mpr ⟨?_, h⟩
      intro j hj
      rcases List.mem_cons.mp hj with rfl | hj
      · exact h1
      · exact lt_trans h1 (hk j hj)
    · exact h
    · refine List.pairwise_cons.mpr ⟨?_, ih hr⟩
      intro j hj
      rcases mem_visInsert.mp hj with rfl | hj
      · omega
      · exact hk j hj

/-! ## What the flow actions can do -/

/-- What no flow action changes: the parameters, the word memory, `WU`, `VIS` and the records. -/
structure SameOutside (s t : State) : Prop where
  cfg : t.cfg = s.cfg
  n : t.n = s.n
  mem : t.mem = s.mem
  sentinel : t.sentinel = s.sentinel
  wu : t.wu = s.wu
  vis : t.vis = s.vis
  records : t.records = s.records

theorem SameOutside.rfl (s : State) : SameOutside s s := ⟨.refl _, .refl _, .refl _, .refl _, .refl _, .refl _, .refl _⟩

theorem SameOutside.trans {s t u : State} (h : SameOutside s t) (k : SameOutside t u) : SameOutside s u :=
  ⟨k.cfg.trans h.cfg, k.n.trans h.n, k.mem.trans h.mem, k.sentinel.trans h.sentinel, k.wu.trans h.wu,
    k.vis.trans h.vis, k.records.trans h.records⟩

theorem resume_of_valid {t : Int} {s : State} (h : ValidTarget s.n t) : resume t s = moveTo (index t) s := by
  obtain ⟨h1, h2, h3⟩ := h
  unfold resume; rw [if_neg (by omega)]

theorem resume_of_not_valid {t : Int} {s : State} (h : ¬ ValidTarget s.n t) :
    resume t s = raiseFault .badTarget t s := by
  unfold resume; rw [if_pos]; by_contra hc; exact h (by unfold ValidTarget; omega)

/-- R280: a resume moves the cursor to a valid target, or raises BAD_TARGET. -/
theorem resume_cases (t : Int) (s : State) :
    (ValidTarget s.n t ∧ resume t s = moveTo (index t) s) ∨
    (¬ ValidTarget s.n t ∧ resume t s = raiseFault .badTarget t s) := by
  by_cases h : ValidTarget s.n t
  · exact .inl ⟨h, resume_of_valid h⟩
  · exact .inr ⟨h, resume_of_not_valid h⟩

theorem resume_same (t : Int) (s : State) : SameOutside s (resume t s) := by
  rcases resume_cases t s with ⟨-, h⟩ | ⟨-, h⟩ <;> rw [h] <;> constructor <;> rfl

/-- R275, R283: a jump enqueues its target and moves one word on, or raises QUEUE_OVERFLOW. -/
theorem jumpAct_cases (t : Int) (s : State) :
    (s.bq.length ≠ s.cfg.qd ∧ jumpAct t s = moveTo (s.idx + 1) (setQueue (s.bq ++ [t]) s)) ∨
    (s.bq.length = s.cfg.qd ∧ jumpAct t s = raiseFault .queueOverflow t s) := by
  by_cases h : s.bq.length = s.cfg.qd
  · exact .inr ⟨h, by simp [jumpAct, h]⟩
  · exact .inl ⟨h, by simp [jumpAct, h]⟩

theorem jumpAct_same (t : Int) (s : State) : SameOutside s (jumpAct t s) := by
  rcases jumpAct_cases t s with ⟨-, h⟩ | ⟨-, h⟩ <;> rw [h] <;> constructor <;> rfl

/-- R276, R284: a followed CALL pushes its return address and resumes, or raises STACK_OVERFLOW. -/
theorem callAct_cases (ret t : Int) (s : State) :
    (s.cs.length ≠ s.cfg.sd ∧ callAct ret t s = resume t (setStack (ret :: s.cs) s)) ∨
    (s.cs.length = s.cfg.sd ∧ callAct ret t s = raiseFault .stackOverflow ret s) := by
  by_cases h : s.cs.length = s.cfg.sd
  · exact .inr ⟨h, by simp [callAct, h]⟩
  · exact .inl ⟨h, by simp [callAct, h]⟩

theorem callAct_same (ret t : Int) (s : State) : SameOutside s (callAct ret t s) := by
  rcases callAct_cases ret t s with ⟨-, h⟩ | ⟨-, h⟩ <;> rw [h]
  · exact SameOutside.trans (t := setStack (ret :: s.cs) s) (by constructor <;> rfl) (resume_same _ _)
  · constructor <;> rfl

theorem drain_append {seen : Int → Bool} {pre : List Int} (h : ∀ c ∈ pre, seen c = true) (q : List Int) :
    drain seen (pre ++ q) = drain seen q := by
  induction pre with
  | nil => rfl
  | cons c pre ih => simp [drain, h c (by simp), ih (fun d hd => h d (by simp [hd]))]

theorem drain_none_iff {seen : Int → Bool} {q : List Int} : drain seen q = none ↔ ∀ c ∈ q, seen c = true := by
  induction q with
  | nil => simp [drain]
  | cons c q ih =>
    simp only [drain]
    split_ifs with h
    · simp [ih, h]
    · simp [h]

/-- R277: the drain answers the first candidate that is not visited and the queue behind it. -/
theorem drain_some_iff {seen : Int → Bool} {q rest : List Int} {c : Int} :
    drain seen q = some (c, rest) ↔ ∃ pre, q = pre ++ c :: rest ∧ (∀ d ∈ pre, seen d = true) ∧ seen c = false := by
  constructor
  · intro h
    induction q with
    | nil => simp [drain] at h
    | cons d q ih =>
      simp only [drain] at h
      split_ifs at h with hd
      · obtain ⟨pre, rfl, hp, hc⟩ := ih h
        refine ⟨d :: pre, rfl, ?_, hc⟩
        intro e he
        rcases List.mem_cons.mp he with rfl | he
        · exact hd
        · exact hp e he
      · simp only [Option.some.injEq, Prod.mk.injEq] at h
        obtain ⟨rfl, rfl⟩ := h
        exact ⟨[], rfl, by simp, by simpa using hd⟩
  · rintro ⟨pre, rfl, hp, hc⟩
    rw [drain_append hp]
    simp [drain, hc]

/-- R278, R279: pop the call stack and resume, or exhaust the walk. -/
theorem retFallback_cases (s : State) :
    (∃ r rest, s.cs = r :: rest ∧ retFallback s = resume r (setStack rest s)) ∨
    (s.cs = [] ∧ retFallback s = stop .exhausted s) := by
  unfold retFallback
  cases h : s.cs with
  | nil => exact .inr ⟨rfl, rfl⟩
  | cons r rest => exact .inl ⟨r, rest, rfl, rfl⟩

/-- R277 to R279: the three ways of a RET. -/
theorem retAct_cases (s : State) :
    (∃ pre c rest, s.bq = pre ++ c :: rest ∧ (∀ d ∈ pre, visited s d = true) ∧ visited s c = false ∧
      retAct s = resume c (setQueue rest s)) ∨
    (∃ r rest, (∀ d ∈ s.bq, visited s d = true) ∧ s.cs = r :: rest ∧
      retAct s = resume r (setStack rest (setQueue [] s))) ∨
    ((∀ d ∈ s.bq, visited s d = true) ∧ s.cs = [] ∧ retAct s = stop .exhausted (setQueue [] s)) := by
  unfold retAct
  cases h : drain (visited s) s.bq with
  | some p =>
    obtain ⟨c, rest⟩ := p
    obtain ⟨pre, h1, h2, h3⟩ := drain_some_iff.mp h
    exact .inl ⟨pre, c, rest, h1, h2, h3, rfl⟩
  | none =>
    have hv := drain_none_iff.mp h
    rcases retFallback_cases (setQueue [] s) with ⟨r, rest, h1, h2⟩ | ⟨h1, h2⟩
    · exact .inr (.inl ⟨r, rest, hv, h1, h2⟩)
    · exact .inr (.inr ⟨hv, h1, h2⟩)

theorem retAct_same (s : State) : SameOutside s (retAct s) := by
  rcases retAct_cases s with ⟨_, c, rest, -, -, -, h⟩ | ⟨r, rest, -, -, h⟩ | ⟨-, -, h⟩ <;> rw [h]
  · exact SameOutside.trans (t := setQueue rest s) (by constructor <;> rfl) (resume_same _ _)
  · exact SameOutside.trans (t := setStack rest (setQueue [] s)) (by constructor <;> rfl) (resume_same _ _)
  · constructor <;> rfl

/-- R281: the two policies. -/
theorem invalidAct_cases (s : State) :
    (s.cfg.policy = .halt ∧ invalidAct s = stop .stoppedInvalid s) ∨
    (s.cfg.policy = .skip ∧ invalidAct s = moveTo (s.idx + 1) s) := by
  unfold invalidAct
  cases h : s.cfg.policy
  · exact .inr ⟨rfl, rfl⟩
  · exact .inl ⟨rfl, rfl⟩

/-- R273: stop on `Invalid` under `HALT`, else step over. -/
theorem linearAct_cases (fin : Instr) (s : State) :
    (fin = .invalid ∧ s.cfg.policy = .halt ∧ linearAct fin s = stop .stoppedInvalid s) ∨
    (¬ (fin = .invalid ∧ s.cfg.policy = .halt) ∧ linearAct fin s = advance s) := by
  by_cases h : fin = .invalid ∧ s.cfg.policy = .halt
  · exact .inl ⟨h.1, h.2, by simp [linearAct, h]⟩
  · exact .inr ⟨h, by unfold linearAct; rw [if_neg h]⟩

/-- R270, R276, R282: a CALL with an immediate destination is followed, every other one stepped over. -/
theorem callFlow_cases (opd : Operand) (s : State) :
    (∃ d, callDest opd = some d ∧
      callFlow opd s = callAct (addr s.idx + 2 * (s.wu.length : Int)) (zext16 d) s) ∨
    (callDest opd = none ∧ callFlow opd s = advance s) := by
  unfold callFlow
  cases h : callDest opd with
  | none => exact .inr ⟨rfl, rfl⟩
  | some d => exact .inl ⟨d, rfl, rfl⟩

@[simp] theorem callDest_immediate (d : Word) :
    callDest { reg := 0, mode := .autoinc, ext := some d, cg := none } = some d := rfl

/-- R276: the one operand form that has an immediate destination. -/
theorem callDest_eq_some {o : Operand} {d : Word} :
    callDest o = some d ↔ o = { reg := 0, mode := .autoinc, ext := some d, cg := none } := by
  obtain ⟨r, m, e, c⟩ := o
  simp only [callDest, Operand.mk.injEq]
  constructor
  · intro h
    split_ifs at h with hc
    exact ⟨hc.1, hc.2.1, h, hc.2.2⟩
  · rintro ⟨rfl, rfl, rfl, rfl⟩; simp

/-! ## Retiring an instruction -/

theorem retire_linear {fin : Instr} {act : State → State} {s : State} (h : s.cfg.mode = .linear) :
    retire fin act s = linearAct fin (emit fin s) := by unfold retire; rw [h]

theorem retire_flow {fin : Instr} {act : State → State} {s : State} (h : s.cfg.mode = .flow) :
    retire fin act s = act (markVisited (emit fin s)) := by unfold retire; rw [h]

end Sys2Proof.Machine
end

