-- ==== Sys2Proof/Laws/Exec.lean ====
section
/-! SUPPORT. What `exec` does, said once: it retires the instruction with its flow action, and always answers a next
state (45_flow_walker.md R270 to R288). -/

namespace Sys2Proof.Machine

/-- The flow action of each instruction (the cases of R270). -/
def flowAct : Instr → State → State
  | .jne _ disp => jumpFlow disp
  | .jeq _ disp => jumpFlow disp
  | .jlo _ disp => jumpFlow disp
  | .jhs _ disp => jumpFlow disp
  | .jn _ disp => jumpFlow disp
  | .jge _ disp => jumpFlow disp
  | .jl _ disp => jumpFlow disp
  | .jmp _ disp => jumpFlow disp
  | .rrc _ _ => advance
  | .swpb _ _ => advance
  | .rra _ _ => advance
  | .sxt _ _ => advance
  | .push _ _ => advance
  | .call _ opd => callFlow opd
  | .reti _ _ => advance
  | .mov _ _ _ => advance
  | .add _ _ _ => advance
  | .addc _ _ _ => advance
  | .subc _ _ _ => advance
  | .sub _ _ _ => advance
  | .cmp _ _ _ => advance
  | .dadd _ _ _ => advance
  | .bit _ _ _ => advance
  | .bic _ _ _ => advance
  | .bis _ _ _ => advance
  | .xor _ _ _ => advance
  | .and _ _ _ => advance
  | .invalid => invalidAct
  | .clr _ _ => advance
  | .nop _ => advance
  | .ret _ => retAct
  | .pop _ _ => advance
  | .br _ _ => advance
  | .clrc _ => advance
  | .clrz _ => advance
  | .clrn _ => advance
  | .dint _ => advance
  | .setc _ => advance
  | .setz _ => advance
  | .setn _ => advance
  | .eint _ => advance
  | .rla _ _ => advance
  | .tst _ _ => advance
  | .dec _ _ => advance
  | .inc _ _ => advance

/-- Every arm of `exec` retires its instruction with its flow action. -/
theorem exec_eq (i : Instr) (s : State) : exec i s = .next (retire i (flowAct i) s) := by
  cases i <;> rfl

/-- The flow actions there are. -/
theorem flowAct_cases (i : Instr) :
    (∃ c off disp, i = mkJump c off disp ∧ flowAct i = jumpFlow disp) ∨
    (∃ bw opd, i = .call bw opd ∧ flowAct i = callFlow opd) ∨
    (∃ bw, i = .ret bw ∧ flowAct i = retAct) ∨
    (i = .invalid ∧ flowAct i = invalidAct) ∨
    ((∀ c off disp, i ≠ mkJump c off disp) ∧ (∀ bw opd, i ≠ .call bw opd) ∧ (∀ bw, i ≠ .ret bw) ∧ i ≠ .invalid ∧
      flowAct i = advance) := by
  cases i
  case jne off disp => exact .inl ⟨.ne, off, disp, rfl, rfl⟩
  case jeq off disp => exact .inl ⟨.eq, off, disp, rfl, rfl⟩
  case jlo off disp => exact .inl ⟨.lo, off, disp, rfl, rfl⟩
  case jhs off disp => exact .inl ⟨.hs, off, disp, rfl, rfl⟩
  case jn off disp => exact .inl ⟨.n, off, disp, rfl, rfl⟩
  case jge off disp => exact .inl ⟨.ge, off, disp, rfl, rfl⟩
  case jl off disp => exact .inl ⟨.l, off, disp, rfl, rfl⟩
  case jmp off disp => exact .inl ⟨.always, off, disp, rfl, rfl⟩
  case call bw opd => exact .inr (.inl ⟨bw, opd, rfl, rfl⟩)
  case ret bw => exact .inr (.inr (.inl ⟨bw, rfl, rfl⟩))
  case invalid => exact .inr (.inr (.inr (.inl ⟨rfl, rfl⟩)))
  all_goals
    refine .inr (.inr (.inr (.inr ⟨?_, by simp, by simp, by simp, rfl⟩)))
    intro c; cases c <;> simp [mkJump]

/-- No flow action touches the parameters, the memory, `WU`, `VIS` or the records. -/
theorem flowAct_same (i : Instr) (s : State) : SameOutside s (flowAct i s) := by
  rcases flowAct_cases i with ⟨_, _, disp, -, h⟩ | ⟨_, opd, -, h⟩ | ⟨_, -, h⟩ | ⟨-, h⟩ | ⟨-, -, -, -, h⟩ <;> rw [h]
  · exact jumpAct_same _ s
  · rcases callFlow_cases opd s with ⟨d, -, h⟩ | ⟨-, h⟩ <;> rw [h]
    · exact callAct_same _ _ s
    · constructor <;> rfl
  · exact retAct_same s
  · rcases invalidAct_cases s with ⟨-, h⟩ | ⟨-, h⟩ <;> rw [h] <;> constructor <;> rfl
  · constructor <;> rfl

/-- Every flow action, by what it answers: the branches of R275 to R282 with the state of each (`ret` is the return
address of R276). -/
theorem flowAct_forms (i : Instr) (s : State) :
    (∃ c off disp, i = mkJump c off disp ∧
      ((s.bq.length ≠ s.cfg.qd ∧ flowAct i s = moveTo (s.idx + 1) (setQueue (s.bq ++ [addr s.idx + disp]) s)) ∨
       (s.bq.length = s.cfg.qd ∧ flowAct i s = raiseFault .queueOverflow (addr s.idx + disp) s))) ∨
    (∃ bw d ret, i = .call bw { reg := 0, mode := .autoinc, ext := some d, cg := none } ∧
      ret = addr s.idx + 2 * (s.wu.length : Int) ∧
      ((s.cs.length = s.cfg.sd ∧ flowAct i s = raiseFault .stackOverflow ret s) ∨
       (s.cs.length ≠ s.cfg.sd ∧ ValidTarget s.n (zext16 d) ∧
         flowAct i s = moveTo (index (zext16 d)) (setStack (ret :: s.cs) s)) ∨
       (s.cs.length ≠ s.cfg.sd ∧ ¬ ValidTarget s.n (zext16 d) ∧
         flowAct i s = raiseFault .badTarget (zext16 d) (setStack (ret :: s.cs) s)))) ∨
    (∃ bw, i = .ret bw ∧
      ((∃ pre c rest, s.bq = pre ++ c :: rest ∧ (∀ d ∈ pre, visited s d = true) ∧ visited s c = false ∧
         ((ValidTarget s.n c ∧ flowAct i s = moveTo (index c) (setQueue rest s)) ∨
          (¬ ValidTarget s.n c ∧ flowAct i s = raiseFault .badTarget c (setQueue rest s)))) ∨
       (∃ r rest, (∀ d ∈ s.bq, visited s d = true) ∧ s.cs = r :: rest ∧
         ((ValidTarget s.n r ∧ flowAct i s = moveTo (index r) (setStack rest (setQueue [] s))) ∨
          (¬ ValidTarget s.n r ∧ flowAct i s = raiseFault .badTarget r (setStack rest (setQueue [] s))))) ∨
       ((∀ d ∈ s.bq, visited s d = true) ∧ s.cs = [] ∧ flowAct i s = stop .exhausted (setQueue [] s)))) ∨
    (i = .invalid ∧ ((s.cfg.policy = .halt ∧ flowAct i s = stop .stoppedInvalid s) ∨
      (s.cfg.policy = .skip ∧ flowAct i s = moveTo (s.idx + 1) s))) ∨
    flowAct i s = advance s := by
  rcases flowAct_cases i with ⟨c, off, disp, hi, h⟩ | ⟨bw, opd, hi, h⟩ | ⟨bw, hi, h⟩ | ⟨hi, h⟩ | ⟨-, -, -, -, h⟩ <;> rw [h]
  · exact .inl ⟨c, off, disp, hi, jumpAct_cases _ s⟩
  · rcases callFlow_cases opd s with ⟨d, hd, h⟩ | ⟨-, h⟩
    · refine .inr (.inl ⟨bw, d, _, by rw [hi, callDest_eq_some.mp hd], rfl, ?_⟩)
      rw [h]
      rcases callAct_cases (addr s.idx + 2 * (s.wu.length : Int)) (zext16 d) s with ⟨hc, h⟩ | ⟨hc, h⟩ <;> rw [h]
      · rcases resume_cases (zext16 d) (setStack ((addr s.idx + 2 * (s.wu.length : Int)) :: s.cs) s) with h | h
        · exact .inr (.inl ⟨hc, h⟩)
        · exact .inr (.inr ⟨hc, h⟩)
      · exact .inl ⟨hc, rfl⟩
    · exact .inr (.inr (.inr (.inr h)))
  · refine .inr (.inr (.inl ⟨bw, hi, ?_⟩))
    rcases retAct_cases s with ⟨pre, c, rest, hb, hp, hc, h⟩ | ⟨r, rest, hv, hc, h⟩ | h
    · rw [h]; exact .inl ⟨pre, c, rest, hb, hp, hc, resume_cases c (setQueue rest s)⟩
    · rw [h]; exact .inr (.inl ⟨r, rest, hv, hc, resume_cases r (setStack rest (setQueue [] s))⟩)
    · exact .inr (.inr h)
  · exact .inr (.inr (.inr (.inl ⟨hi, invalidAct_cases s⟩)))
  · exact .inr (.inr (.inr (.inr rfl)))

end Sys2Proof.Machine
end

