-- ==== Sys2Proof/Laws/PerInstr.lean ====
section
/-! SUPPORT. The family `EncodeLength`: the encoder writes one to three words for every instruction (30_encoding.md R97,
R103), one lemma per constructor. -/

namespace Sys2Proof.Laws.EncodeLength

open Sys2Proof.Machine

/-- The encoding of an instruction is one to three words long. -/
def Statement (i : Instr) : Prop := 1 ≤ (encode i).length ∧ (encode i).length ≤ 3

theorem toList_length_le (o : Option Word) : o.toList.length ≤ 1 := by cases o <;> simp

theorem encode_length (i : Instr) : Statement i := by
  unfold Statement encode
  split
  · simp
  · split
    · rename_i op bw o _
      have := toList_length_le o.ext
      simp only [List.length_cons]; omega
    · split
      · rename_i op bw src dst _
        have := toList_length_le src.ext
        have := toList_length_le dst.ext
        simp only [List.length_cons, List.length_append]; omega
      · simp

theorem jne (off disp : Int) : Statement (.jne off disp) := encode_length _
theorem jeq (off disp : Int) : Statement (.jeq off disp) := encode_length _
theorem jlo (off disp : Int) : Statement (.jlo off disp) := encode_length _
theorem jhs (off disp : Int) : Statement (.jhs off disp) := encode_length _
theorem jn (off disp : Int) : Statement (.jn off disp) := encode_length _
theorem jge (off disp : Int) : Statement (.jge off disp) := encode_length _
theorem jl (off disp : Int) : Statement (.jl off disp) := encode_length _
theorem jmp (off disp : Int) : Statement (.jmp off disp) := encode_length _
theorem rrc (bw : Bit) (opd : Operand) : Statement (.rrc bw opd) := encode_length _
theorem swpb (bw : Bit) (opd : Operand) : Statement (.swpb bw opd) := encode_length _
theorem rra (bw : Bit) (opd : Operand) : Statement (.rra bw opd) := encode_length _
theorem sxt (bw : Bit) (opd : Operand) : Statement (.sxt bw opd) := encode_length _
theorem push (bw : Bit) (opd : Operand) : Statement (.push bw opd) := encode_length _
theorem call (bw : Bit) (opd : Operand) : Statement (.call bw opd) := encode_length _
theorem reti (bw : Bit) (opd : Operand) : Statement (.reti bw opd) := encode_length _
theorem mov (bw : Bit) (src dst : Operand) : Statement (.mov bw src dst) := encode_length _
theorem add (bw : Bit) (src dst : Operand) : Statement (.add bw src dst) := encode_length _
theorem addc (bw : Bit) (src dst : Operand) : Statement (.addc bw src dst) := encode_length _
theorem subc (bw : Bit) (src dst : Operand) : Statement (.subc bw src dst) := encode_length _
theorem sub (bw : Bit) (src dst : Operand) : Statement (.sub bw src dst) := encode_length _
theorem cmp (bw : Bit) (src dst : Operand) : Statement (.cmp bw src dst) := encode_length _
theorem dadd (bw : Bit) (src dst : Operand) : Statement (.dadd bw src dst) := encode_length _
theorem bit (bw : Bit) (src dst : Operand) : Statement (.bit bw src dst) := encode_length _
theorem bic (bw : Bit) (src dst : Operand) : Statement (.bic bw src dst) := encode_length _
theorem bis (bw : Bit) (src dst : Operand) : Statement (.bis bw src dst) := encode_length _
theorem xor (bw : Bit) (src dst : Operand) : Statement (.xor bw src dst) := encode_length _
theorem and (bw : Bit) (src dst : Operand) : Statement (.and bw src dst) := encode_length _
theorem invalid : Statement .invalid := encode_length _
theorem clr (bw : Bit) (dst : Operand) : Statement (.clr bw dst) := encode_length _
theorem nop (bw : Bit) : Statement (.nop bw) := encode_length _
theorem ret (bw : Bit) : Statement (.ret bw) := encode_length _
theorem pop (bw : Bit) (dst : Operand) : Statement (.pop bw dst) := encode_length _
theorem br (bw : Bit) (src : Operand) : Statement (.br bw src) := encode_length _
theorem clrc (bw : Bit) : Statement (.clrc bw) := encode_length _
theorem clrz (bw : Bit) : Statement (.clrz bw) := encode_length _
theorem clrn (bw : Bit) : Statement (.clrn bw) := encode_length _
theorem dint (bw : Bit) : Statement (.dint bw) := encode_length _
theorem setc (bw : Bit) : Statement (.setc bw) := encode_length _
theorem setz (bw : Bit) : Statement (.setz bw) := encode_length _
theorem setn (bw : Bit) : Statement (.setn bw) := encode_length _
theorem eint (bw : Bit) : Statement (.eint bw) := encode_length _
theorem rla (bw : Bit) (dst : Operand) : Statement (.rla bw dst) := encode_length _
theorem tst (bw : Bit) (dst : Operand) : Statement (.tst bw dst) := encode_length _
theorem dec (bw : Bit) (dst : Operand) : Statement (.dec bw dst) := encode_length _
theorem inc (bw : Bit) (dst : Operand) : Statement (.inc bw dst) := encode_length _

end Sys2Proof.Laws.EncodeLength
end

