-- ==== Sys2Proof/Laws/Step.lean ====
section
/-! SUPPORT. What one step can do, said once (45_flow_walker.md R270, 60_exceptions.md R320), and what the window at the
cursor holds (20_memory.md R65). -/

namespace Sys2Proof.Machine

/-- A cursor with a window names a loaded word. -/
theorem fetchWindow_idx {s : State} {w0 : Word} {exts : List Word} (h : fetchWindow s = some (w0, exts)) :
    1 ≤ s.idx ∧ s.idx ≤ s.n := by
  unfold fetchWindow at h
  cases hw : readWord s s.idx with
  | none => rw [hw] at h; simp at h
  | some w => exact (readWord_isSome s s.idx).mp (by rw [hw]; rfl)

/-- The window is the words at the cursor, in stream order, all of them in the stream. -/
theorem fetchWindow_words {s : State} {w0 : Word} {exts : List Word} (h : fetchWindow s = some (w0, exts)) :
    exts.length ≤ 2 ∧ s.idx + exts.length ≤ s.n ∧
      ∀ k, k < 1 + exts.length → readWord s (s.idx + k) = (w0 :: exts)[k]? := by
  have some_le : ∀ i w, readWord s i = some w → i ≤ s.n := fun i w hw =>
    ((readWord_isSome s i).mp (by rw [hw]; rfl)).2
  unfold fetchWindow at h
  cases h0 : readWord s s.idx with
  | none => rw [h0] at h; simp at h
  | some v0 =>
    rw [h0] at h; simp only at h
    cases h1 : readWord s (s.idx + 1) with
    | none =>
      rw [h1] at h
      simp only [Option.some.injEq, Prod.mk.injEq] at h
      obtain ⟨rfl, rfl⟩ := h
      refine ⟨by simp, by simpa using some_le _ _ h0, fun k hk => ?_⟩
      obtain rfl : k = 0 := by simpa using hk
      simpa using h0
    | some v1 =>
      rw [h1] at h; simp only at h
      cases h2 : readWord s (s.idx + 2) with
      | none =>
        rw [h2] at h
        simp only [Option.some.injEq, Prod.mk.injEq] at h
        obtain ⟨rfl, rfl⟩ := h
        refine ⟨by simp, by simpa using some_le _ _ h1, fun k hk => ?_⟩
        rcases k with _ | _ | k
        · simpa using h0
        · simpa using h1
        · simp at hk
      | some v2 =>
        rw [h2] at h
        simp only [Option.some.injEq, Prod.mk.injEq] at h
        obtain ⟨rfl, rfl⟩ := h
        refine ⟨by simp, by simpa using some_le _ _ h2, fun k hk => ?_⟩
        rcases k with _ | _ | _ | k
        · simpa using h0
        · simpa using h1
        · simpa using h2
        · simp at hk; omega

/-- What `fetch` answers, by the pipeline's answer on the window. -/
theorem fetch_cases (s : State) :
    (fetchWindow s = none ∧ fetch s = .outside) ∨
    (∃ w0 exts need, fetchWindow s = some (w0, exts) ∧ resolve w0 exts = .trunc need ∧ fetch s = .truncated need) ∨
    (∃ w0 exts fin len, fetchWindow s = some (w0, exts) ∧ resolve w0 exts = .ok fin len ∧
      fetch s = .instr fin ((w0 :: exts).take len)) := by
  unfold fetch
  cases hw : fetchWindow s with
  | none => exact .inl ⟨rfl, rfl⟩
  | some p =>
    obtain ⟨w0, exts⟩ := p
    cases hr : resolve w0 exts with
    | trunc need => exact .inr (.inl ⟨w0, exts, need, rfl, hr, by simp [hr]⟩)
    | ok fin len => exact .inr (.inr ⟨w0, exts, fin, len, rfl, hr, by simp [hr]⟩)

/-- The four ways a step answers a next state: a terminal state, the end marker, a truncated instruction, an
instruction. -/
theorem step_cases {s t : State} (h : step s = .next t) :
    (s.status ≠ .run ∧ t = s) ∨
    (s.status = .run ∧ s.idx = s.n + 1 ∧ t = stop .endOfStream s) ∨
    (∃ need, s.status = .run ∧ fetch s = .truncated need ∧ t = raiseFault .truncated (need : Int) s) ∨
    (∃ fin words, s.status = .run ∧ fetch s = .instr fin words ∧
      t = retire fin (flowAct fin) (consume words s)) := by
  unfold step at h
  by_cases hr : s.status = .run
  · rw [if_neg (by simp [hr])] at h
    by_cases he : s.idx = s.n + 1
    · rw [if_pos (by simp [atEnd, he])] at h
      exact .inr (.inl ⟨hr, he, by simpa using h.symm⟩)
    · rw [if_neg (by simp [atEnd, he])] at h
      cases hf : fetch s with
      | outside => rw [hf] at h; simp at h
      | truncated need => rw [hf] at h; exact .inr (.inr (.inl ⟨need, hr, rfl, by simpa using h.symm⟩))
      | instr fin words =>
        rw [hf] at h
        simp only [exec_eq, Host.Outcome.next.injEq] at h
        exact .inr (.inr (.inr ⟨fin, words, hr, rfl, h.symm⟩))
  · rw [if_pos hr] at h
    exact .inl ⟨hr, by simpa using h.symm⟩

/-- A step in `RUN` that finds an instruction retires it. -/
theorem step_of_instr {s : State} {fin : Instr} {words : List Word} (hr : s.status = .run)
    (hf : fetch s = .instr fin words) : step s = .next (retire fin (flowAct fin) (consume words s)) := by
  have hi : s.idx ≠ s.n + 1 := by
    rcases fetch_cases s with ⟨-, h⟩ | ⟨_, _, _, hw, -, -⟩ | ⟨_, _, _, _, hw, -, -⟩
    · rw [h] at hf; simp at hf
    · have := (fetchWindow_idx hw).2; omega
    · have := (fetchWindow_idx hw).2; omega
  simp [step, hr, atEnd, hi, hf, exec_eq]

/-- A run of `k + 1` steps is a step and a run of `k`. -/
theorem run_succ_of_next {s t : State} (k : Nat) (h : step s = .next t) :
    Host.Core.run core (k + 1) s = Host.Core.run core k t := by
  have unfolded : ∀ (M : Host.Core) (a b : M.State), M.step a = .next b → M.run (k + 1) a = M.run k b := by
    intro M a b hab
    simp only [Host.Core.run, hab]
  exact unfolded core s t h

end Sys2Proof.Machine
end

