-- ==== Sys2Proof/Tests/Slice0.lean ====
section
/-! SUPPORT. The model's own tests. Expected results are those of 95_test_vectors.md or are worked out from the rule
named with the test; the last part names, for every statement with hypotheses, data that meet them. -/

namespace Sys2Proof.Tests

open Sys2Proof.Machine

/-! ## Helpers -/

/-- The bytes of words, as an input lays them out (20_memory.md R63). -/
def bytesOf (ws : List Word) : List Byte := ws.flatMap fun w => [lowByte w, highByte w]

/-- The state an outcome goes on in; `State.reset` where it does not go on. -/
def nextOf (o : Host.Outcome State Fault Refusal) : State :=
  match o with
  | .next s => s
  | .fault _ => State.reset
  | .refused _ => State.reset

/-- Small parameters: room for two queue entries and two stack entries. -/
def flowCfg : Config := { qd := 2, sd := 2, nmax := 16, mode := .flow, policy := .skip }
def linearCfg : Config := { flowCfg with mode := .linear }

/-- The state after a launch with these words. -/
def loaded (cfg : Config) (ws : List Word) : State := nextOf (launch cfg (bytesOf ws))

/-- Program P1 of part 4: `CALL #8; CLR R4; RET; INC R5; RET`. -/
def p1 : List Word := [0x12B0, 0x0008, 0x4304, 0x4130, 0x5315, 0x4130]

/-- `CALL #8; CLR R4; RET; JMP 0; RET`. -/
def p7 : List Word := [0x12B0, 0x0008, 0x4304, 0x4130, 0x3FFB, 0x4130]

/-- P7 after two steps, at its second RET: something in every memory, and the one candidate is visited. -/
def atRet : State :=
  { loaded flowCfg p7 with
    idx := 6, wu := [0x3FFB], vis := [1, 5], bq := [0], cs := [4],
    records := [
      { start := 0, len := 2, words := [0x12B0, 0x0008], instr := .call 0 ⟨0, .autoinc, some 0x0008, none⟩ },
      { start := 8, len := 1, words := [0x3FFB], instr := .jmp (-5) (-8) }] }

/-! ## Well-formedness: one ill-formed term for each check -/

theorem test_wf_jump_offset : (Instr.jmp 512 1026).wellFormed = false := by decide
theorem test_wf_jump_displacement : (Instr.jeq 2 4).wellFormed = false := by decide
theorem test_wf_single_mode : (Instr.push 0 ⟨5, .const1, none, none⟩).wellFormed = false := by decide
theorem test_wf_single_extension : (Instr.push 0 ⟨5, .indexed, none, none⟩).wellFormed = false := by decide
theorem test_wf_single_constant : (Instr.push 0 ⟨0, .autoinc, none, some 1⟩).wellFormed = false := by decide
theorem test_wf_source_alias : (Instr.mov 0 ⟨3, .const1, none, none⟩ ⟨5, .direct, none, none⟩).wellFormed = false := by
  decide
theorem test_wf_source_constant :
    (Instr.mov 0 ⟨0, .autoinc, none, some 3⟩ ⟨5, .direct, none, none⟩).wellFormed = false := by decide
theorem test_wf_source_extension :
    (Instr.mov 0 ⟨2, .absolute, none, none⟩ ⟨5, .direct, none, none⟩).wellFormed = false := by decide
theorem test_wf_dest_mode : (Instr.xor 0 ⟨4, .direct, none, none⟩ ⟨5, .indirect, none, none⟩).wellFormed = false := by
  decide
theorem test_wf_dest_extension :
    (Instr.xor 0 ⟨4, .direct, none, none⟩ ⟨5, .direct, some 1, none⟩).wellFormed = false := by decide
theorem test_wf_unrecognized_idiom :
    (Instr.mov 0 ⟨5, .direct, none, none⟩ ⟨5, .direct, none, none⟩).wellFormed = false := by decide
theorem test_wf_idiom_operand : (Instr.inc 0 ⟨0, .direct, none, none⟩).wellFormed = false := by decide
theorem test_decodedForm_idiom : (Instr.nop 0).decodedForm = false := by decide

/-! ## Decoding: words written out bit by bit -/

/-- R82, R98: `001`, condition 0, offset -1. -/
theorem test_decode_jne : resolve 0b0010001111111111 [] = .ok (.jne (-1) (0)) 1 := by decide

/-- R82, R98: `001`, condition 1, offset 2. -/
theorem test_decode_jeq : resolve 0b0010010000000010 [] = .ok (.jeq (2) (6)) 1 := by decide

/-- R82, R98: `001`, condition 2, offset 0. -/
theorem test_decode_jlo : resolve 0b0010100000000000 [] = .ok (.jlo (0) (2)) 1 := by decide

/-- R82, R98: `001`, condition 3, offset 0. -/
theorem test_decode_jhs : resolve 0b0010110000000000 [] = .ok (.jhs (0) (2)) 1 := by decide

/-- R82, R98: `001`, condition 4, offset 0. -/
theorem test_decode_jn : resolve 0b0011000000000000 [] = .ok (.jn (0) (2)) 1 := by decide

/-- R82, R98: `001`, condition 5, offset 1. -/
theorem test_decode_jge : resolve 0b0011010000000001 [] = .ok (.jge (1) (4)) 1 := by decide

/-- R82, R98: `001`, condition 6, offset -2. -/
theorem test_decode_jl : resolve 0b0011101111111110 [] = .ok (.jl (-2) (-2)) 1 := by decide

/-- R82, R98: `001`, condition 7, offset 511. -/
theorem test_decode_jmp : resolve 0b0011110111111111 [] = .ok (.jmp (511) (1024)) 1 := by decide

/-- 95 part 3.2: Indexed. -/
theorem test_decode_rrc : resolve 0b0001000000010101 [0x0004] = .ok (.rrc 0 ⟨5, .indexed, some 4, none⟩) 2 := by decide

/-- R83, R87: opcode 1, R5 Direct. -/
theorem test_decode_swpb : resolve 0b0001000010000101 [] = .ok (.swpb 0 ⟨5, .direct, none, none⟩) 1 := by decide

/-- R83, R87: opcode 2, R5 Indirect. -/
theorem test_decode_rra : resolve 0b0001000100100101 [] = .ok (.rra 0 ⟨5, .indirect, none, none⟩) 1 := by decide

/-- R83, R87, R94: opcode 3, Autoinc on PC. -/
theorem test_decode_sxt : resolve 0b0001000110110000 [0xABCD] = .ok (.sxt 0 ⟨0, .autoinc, some 0xABCD, none⟩) 2 := by decide

/-- R83, R87, R159: opcode 4, bw 1, ABSOLUTE on SR takes no word. -/
theorem test_decode_push : resolve 0b0001001001010010 [] = .ok (.push 1 ⟨2, .absolute, none, none⟩) 1 := by decide

/-- 95 part 3.2: the walker's CALL form. -/
theorem test_decode_call : resolve 0b0001001010110000 [0x0008] = .ok (.call 0 ⟨0, .autoinc, some 8, none⟩) 2 := by decide

/-- 95 part 3.2: RETI with Indexed PC field. -/
theorem test_decode_reti : resolve 0b0001001100010000 [0x0002] = .ok (.reti 0 ⟨0, .indexed, some 2, none⟩) 2 := by decide

/-- 95 part 3.3: both Indexed, the source's word first. -/
theorem test_decode_mov : resolve 0b0100010110010110 [0x0002, 0x0004] = .ok (.mov 0 ⟨5, .indexed, some 2, none⟩ ⟨6, .indexed, some 4, none⟩) 3 := by decide

/-- 95 part 3.4: source normalized, destination CONST0 on R3 kept. -/
theorem test_decode_add : resolve 0b0101001100100011 [] = .ok (.add 0 ⟨0, .autoinc, none, some 2⟩ ⟨3, .const0, none, none⟩) 1 := by decide

/-- 95 part 3.3: opcode 6, R5, R6. -/
theorem test_decode_addc : resolve 0b0110010100000110 [] = .ok (.addc 0 ⟨5, .direct, none, none⟩ ⟨6, .direct, none, none⟩) 1 := by decide

/-- 95 part 3.3: opcode 7, R5, R6. -/
theorem test_decode_subc : resolve 0b0111010100000110 [] = .ok (.subc 0 ⟨5, .direct, none, none⟩ ⟨6, .direct, none, none⟩) 1 := by decide

/-- 95 part 3.3: opcode 8, R5, R6. -/
theorem test_decode_sub : resolve 0b1000010100000110 [] = .ok (.sub 0 ⟨5, .direct, none, none⟩ ⟨6, .direct, none, none⟩) 1 := by decide

/-- 95 part 3.3: opcode 9, R5, R6. -/
theorem test_decode_cmp : resolve 0b1001010100000110 [] = .ok (.cmp 0 ⟨5, .direct, none, none⟩ ⟨6, .direct, none, none⟩) 1 := by decide

/-- 95 part 3.3: opcode 10, R5, R6. -/
theorem test_decode_dadd : resolve 0b1010010100000110 [] = .ok (.dadd 0 ⟨5, .direct, none, none⟩ ⟨6, .direct, none, none⟩) 1 := by decide

/-- 95 part 3.3: opcode 11, R5, R6. -/
theorem test_decode_bit : resolve 0b1011010100000110 [] = .ok (.bit 0 ⟨5, .direct, none, none⟩ ⟨6, .direct, none, none⟩) 1 := by decide

/-- 95 part 3.3: opcode 12, R5, R6. -/
theorem test_decode_bic : resolve 0b1100010100000110 [] = .ok (.bic 0 ⟨5, .direct, none, none⟩ ⟨6, .direct, none, none⟩) 1 := by decide

/-- 95 part 3.3: opcode 13, R5, R6. -/
theorem test_decode_bis : resolve 0b1101010100000110 [] = .ok (.bis 0 ⟨5, .direct, none, none⟩ ⟨6, .direct, none, none⟩) 1 := by decide

/-- 95 part 3.5: no INV row. -/
theorem test_decode_xor : resolve 0b1110001100110101 [] = .ok (.xor 0 ⟨0, .autoinc, none, some (-1)⟩ ⟨5, .direct, none, none⟩) 1 := by decide

/-- 95 part 4, P3 step 3. -/
theorem test_decode_and : resolve 0b1111000011110010 [0x00FF, 0x0021] = .ok (.and 1 ⟨0, .autoinc, some 0x00FF, none⟩ ⟨2, .absolute, some 0x0021, none⟩) 3 := by decide

/-- 95 part 3.3: opcode 0. -/
theorem test_decode_invalid_zero : resolve 0b0000000000000000 [0x1234] = .ok .invalid 1 := by decide

/-- R114: single-operand opcode 7. -/
theorem test_decode_invalid_single : resolve 0b0001001110111111 [0x1234] = .ok .invalid 1 := by decide

/-- 95 part 3.3: 0x1C00. -/
theorem test_decode_invalid_1c00 : resolve 0b0001110000000000 [] = .ok .invalid 1 := by decide

/-- 95 parts 1.4, 3.3 and 3.5. -/
theorem test_decode_clr : resolve 0b0100001100000100 [] = .ok (.clr 0 ⟨4, .direct, none, none⟩) 1 := by decide

/-- 95 parts 1.4, 3.3 and 3.5. -/
theorem test_decode_nop : resolve 0b0100010101000101 [] = .ok (.nop 1) 1 := by decide

/-- 95 parts 1.4, 3.3 and 3.5. -/
theorem test_decode_ret : resolve 0b0100000110110000 [0x0004] = .ok (.ret 0) 2 := by decide

/-- 95 parts 1.4, 3.3 and 3.5. -/
theorem test_decode_pop : resolve 0b0100000110110100 [0x0006] = .ok (.pop 0 ⟨4, .indexed, some 6, none⟩) 2 := by decide

/-- 95 parts 1.4, 3.3 and 3.5. -/
theorem test_decode_br : resolve 0b0100010100010000 [0x0002] = .ok (.br 0 ⟨5, .indexed, some 2, none⟩) 2 := by decide

/-- 95 parts 1.4, 3.3 and 3.5. -/
theorem test_decode_clrc : resolve 0b1100000000110010 [0x0001] = .ok (.clrc 0) 2 := by decide

/-- 95 parts 1.4, 3.3 and 3.5. -/
theorem test_decode_clrz : resolve 0b1100001100100010 [] = .ok (.clrz 0) 1 := by decide

/-- 95 parts 1.4, 3.3 and 3.5. -/
theorem test_decode_clrn : resolve 0b1100001000100010 [] = .ok (.clrn 0) 1 := by decide

/-- 95 parts 1.4, 3.3 and 3.5. -/
theorem test_decode_dint : resolve 0b1100001000110010 [] = .ok (.dint 0) 1 := by decide

/-- 95 parts 1.4, 3.3 and 3.5. -/
theorem test_decode_setc : resolve 0b1101001100010010 [] = .ok (.setc 0) 1 := by decide

/-- 95 parts 1.4, 3.3 and 3.5. -/
theorem test_decode_setz : resolve 0b1101001100100010 [] = .ok (.setz 0) 1 := by decide

/-- 95 parts 1.4, 3.3 and 3.5. -/
theorem test_decode_setn : resolve 0b1101001000100010 [] = .ok (.setn 0) 1 := by decide

/-- 95 parts 1.4, 3.3 and 3.5. -/
theorem test_decode_eint : resolve 0b1101000001110010 [0x0008] = .ok (.eint 1) 2 := by decide

/-- 95 parts 1.4, 3.3 and 3.5. -/
theorem test_decode_rla : resolve 0b0101010000010100 [0x0002] = .ok (.rla 0 ⟨4, .direct, none, none⟩) 2 := by decide

/-- 95 parts 1.4, 3.3 and 3.5. -/
theorem test_decode_rla_addc : resolve 0b0110010000000100 [] = .ok (.rla 0 ⟨4, .direct, none, none⟩) 1 := by decide

/-- 95 parts 1.4, 3.3 and 3.5. -/
theorem test_decode_tst : resolve 0b1001000000110101 [0x0000] = .ok (.tst 0 ⟨5, .direct, none, none⟩) 2 := by decide

/-- 95 parts 1.4, 3.3 and 3.5. -/
theorem test_decode_dec : resolve 0b1000000000110101 [0x0001] = .ok (.dec 0 ⟨5, .direct, none, none⟩) 2 := by decide

/-- 95 parts 1.4, 3.3 and 3.5. -/
theorem test_decode_inc : resolve 0b0101001100010101 [] = .ok (.inc 0 ⟨5, .direct, none, none⟩) 1 := by decide

/-- 95 part 3.5: MOV #0, PC is CLR PC. -/
theorem test_decode_clr_before_br : resolve 0b0100001100000000 [] = .ok (.clr 0 ⟨0, .direct, none, none⟩) 1 := by decide

/-- 95 part 3.5: BIC #0x10, SR is no idiom. -/
theorem test_decode_bic_near_miss : resolve 0b1100000000110010 [0x0010] = .ok (.bic 0 ⟨0, .autoinc, some 0x0010, none⟩ ⟨2, .direct, none, none⟩) 2 := by decide

/-- 95 part 3.5: Indirect, not Autoinc. -/
theorem test_decode_mov_near_miss : resolve 0b0100000100100001 [] = .ok (.mov 0 ⟨1, .indirect, none, none⟩ ⟨1, .direct, none, none⟩) 1 := by decide

/-- 95 part 3.3: need counts both words. -/
theorem test_decode_trunc_both : resolve 0b0100010110010110 [] = .trunc 3 := by decide

/-- 95 part 3.3. -/
theorem test_decode_trunc_second : resolve 0b0100000010110010 [0x1111] = .trunc 3 := by decide

/-- 95 part 3.2. -/
theorem test_decode_trunc_single : resolve 0b0001000000110000 [] = .trunc 2 := by decide

/-! ## The host's two questions -/

theorem test_table_word : decodeTableWord 16 0x3C02 = some (.jmp 2 6) := by decide
theorem test_table_word_three : decodeTableWord 48 0x0021_00FF_F0F2 =
    some (.and 1 ⟨0, .autoinc, some 0x00FF, none⟩ ⟨2, .absolute, some 0x0021, none⟩) := by decide
theorem test_fetch_word : fetch (State.reset.withFetchWord 16 0x4415) =
    .instr (.mov 0 ⟨4, .indexed, some 0, none⟩ ⟨5, .direct, none, none⟩) [0x4415, 0] := by decide
theorem test_step_fetch_word : (nextOf (step (State.reset.withFetchWord 16 0x12B0))).cs = [4] := by decide

/-! ## Single steps (95_test_vectors.md part 3.6 and part 4) -/

theorem test_step_empty : (nextOf (step (loaded flowCfg []))).status = .endOfStream := by decide

theorem test_step_truncated : nextOf (step (loaded flowCfg [0x4415])) =
    { loaded flowCfg [0x4415] with status := .fault, cause := .truncated, faultAddr := 0, faultInfo := 2 } := by decide

theorem test_step_jump : nextOf (step (loaded flowCfg [0x3C02, 0x4130])) =
    { loaded flowCfg [0x3C02, 0x4130] with
      wu := [0x3C02], vis := [1], bq := [6], idx := 2
      records := [{ start := 0, len := 1, words := [0x3C02], instr := .jmp 2 6 }] } := by decide

theorem test_step_queue_overflow :
    let s := { loaded { flowCfg with qd := 1 } [0x3C02, 0x4130] with bq := [4] }
    nextOf (step s) = { s with
      wu := [0x3C02], vis := [1], status := .fault, cause := .queueOverflow, faultAddr := 0, faultInfo := 6
      records := [{ start := 0, len := 1, words := [0x3C02], instr := .jmp 2 6 }] } := by decide

theorem test_step_call : (nextOf (step (loaded flowCfg p1))).cs = [4] ∧ (nextOf (step (loaded flowCfg p1))).idx = 5 := by
  decide

theorem test_step_call_odd :
    let t := nextOf (step (loaded flowCfg [0x12B0, 0x0009, 0x4130]))
    t.cs = [4] ∧ t.cause = .badTarget ∧ t.faultInfo = 9 ∧ t.idx = 1 ∧ t.records.length = 1 := by decide

theorem test_step_call_beyond :
    let t := nextOf (step (loaded flowCfg [0x12B0, 0x0008, 0x4130]))
    t.cs = [4] ∧ t.cause = .badTarget ∧ t.faultInfo = 8 := by decide

theorem test_step_call_end : (nextOf (step (loaded flowCfg [0x12B0, 0x0006, 0x4130]))).idx = 4 := by decide

theorem test_step_stack_overflow :
    let t := nextOf (step { loaded { flowCfg with sd := 1 } [0, 0, 0, 0, 0x12B0, 0x0000] with idx := 5, cs := [4] })
    t.cs = [4] ∧ t.cause = .stackOverflow ∧ t.faultAddr = 8 ∧ t.faultInfo = 0x000C := by decide

theorem test_step_ret_drain :
    let t := nextOf (step { loaded flowCfg [0x4315, 0x4315, 0x4130, 0x4315] with idx := 3, vis := [1, 3], bq := [0, 6] })
    t.idx = 4 ∧ t.bq = [] ∧ t.status = .run := by decide

theorem test_step_ret_bad :
    let t := nextOf (step { loaded flowCfg [0x4130] with bq := [3] })
    t.cause = .badTarget ∧ t.faultInfo = 3 ∧ t.bq = [] ∧ t.idx = 1 := by decide

theorem test_step_ret_pop : (nextOf (step atRet)).idx = 3 ∧ (nextOf (step atRet)).bq = [] ∧ (nextOf (step atRet)).cs = [] := by
  decide

theorem test_step_ret_exhausted :
    let t := nextOf (step (loaded flowCfg [0x4130]))
    t.status = .exhausted ∧ t.cause = .none ∧ t.idx = 1 ∧ t.records.length = 1 := by decide

theorem test_step_invalid_skip : (nextOf (step (loaded flowCfg [0x0000, 0x4130]))).idx = 2 := by decide

theorem test_step_invalid_halt :
    let t := nextOf (step (loaded { flowCfg with policy := .halt } [0x0000, 0x4130]))
    t.status = .stoppedInvalid ∧ t.vis = [1] ∧ t.idx = 1 := by decide

theorem test_step_br : (nextOf (step (loaded flowCfg [0x4030, 0x0000]))).idx = 3 := by decide

theorem test_step_linear_call :
    let t := nextOf (step (loaded linearCfg [0x12B0, 0x0008, 0x4130]))
    t.idx = 3 ∧ t.vis = [] ∧ t.cs = [] ∧ t.records.length = 1 := by decide

theorem test_step_linear_halt :
    (nextOf (step { loaded { linearCfg with policy := .halt } [0x4304, 0x1380] with idx := 2 })).status
      = .stoppedInvalid := by decide

theorem test_launch_odd :
    let s := nextOf (launch flowCfg [1, 2, 3])
    s.status = .fault ∧ s.cause = .malformedLength ∧ s.faultAddr = 0 ∧ s.faultInfo = 3 ∧ s.n = 0 := by decide

/-- 95_test_vectors.md P1: the bytes as loaded, lower byte first. -/
theorem test_load_words : (List.range 8).map (readWord (loaded flowCfg p1)) =
    [none, some 0x12B0, some 0x0008, some 0x4304, some 0x4130, some 0x5315, some 0x4130, none] := by decide

theorem test_observe : observe (nextOf (step (loaded flowCfg [0x4415]))) =
    { records := [], status := 4, cause := 1, faultAddr := 0, faultInfo := 2 } := by decide

/-! ## Witnesses: data that meet the hypotheses of each statement -/

/-- An operand for the witnesses. -/
def r5 : Operand := ⟨5, .direct, none, none⟩

/-- Every relation of the invariant in a state with something in every memory. -/
theorem witness_inv : atRet.Inv := by
  constructor <;> decide

/-- That state is one a run reaches: two steps after the launch. -/
theorem test_atRet_reached : nextOf (step (nextOf (step (loaded flowCfg p7)))) = atRet := by decide

/-- The invariant in a state of LINEAR mode, and in one that has faulted. -/
theorem witness_inv_linear : (nextOf (step (loaded linearCfg p7))).Inv := by
  constructor <;> decide
theorem witness_inv_fault : (nextOf (step (loaded flowCfg [0x4415]))).Inv := by
  constructor <;> decide

theorem witness_StepRunsTheDecodedInstruction :
    (loaded flowCfg p1).status = .run ∧ fetchWindow (loaded flowCfg p1) = some (0x12B0, [0x0008, 0x4304]) ∧
      resolve 0x12B0 [0x0008, 0x4304] = .ok (.call 0 ⟨0, .autoinc, some 0x0008, none⟩) 2 := by decide

/-- Both clauses at their boundaries: index 1, N-1 and N, and then 0 and N+1. -/
theorem witness_FetchWindowHoldsTheNextWords :
    fetchWindow (loaded flowCfg p1) = some (0x12B0, [0x0008, 0x4304]) ∧
    fetchWindow { loaded flowCfg p1 with idx := 5 } = some (0x5315, [0x4130]) ∧
    fetchWindow { loaded flowCfg p1 with idx := 6 } = some (0x4130, []) ∧
    fetchWindow { loaded flowCfg p1 with idx := 0 } = none ∧
    fetchWindow { loaded flowCfg p1 with idx := 7 } = none := by decide

theorem witness_EndOfStreamEndsTheRun :
    let s := { loaded flowCfg p1 with idx := 7 }
    s.status = .run ∧ s.idx = s.n + 1 := by decide

theorem witness_TerminalStatesTakeNoStep : ({ atRet with status := .exhausted } : State).status ≠ .run := by decide

theorem witness_TruncationRaisesTheFault :
    let s := loaded flowCfg [0x4596, 0x0002]
    s.status = .run ∧ fetchWindow s = some (0x4596, [0x0002]) ∧ resolve 0x4596 [0x0002] = .trunc 3 := by decide

theorem witness_CursorOutsideTheStreamStops :
    let s := { loaded flowCfg p1 with idx := 0 }
    let t := { loaded flowCfg p1 with idx := 8 }
    (s.status = .run ∧ s.idx = 0) ∧ (t.status = .run ∧ t.n + 1 < t.idx) := by decide

theorem witness_JumpEnqueuesItsTarget : atRet.cfg.mode = .flow ∧ atRet.bq.length ≠ atRet.cfg.qd := by decide

theorem witness_JumpIntoFullQueueFaults :
    let s := { atRet with bq := [0, 8] }
    s.cfg.mode = .flow ∧ s.bq.length = s.cfg.qd := by decide

/-- The smallest and the largest destination. -/
theorem witness_CallImmediateIsFollowed :
    atRet.cfg.mode = .flow ∧ atRet.cs.length ≠ atRet.cfg.sd ∧
      ((0x0000 : Word).toNat % 2 = 0 ∧ (0x0000 : Word).toNat ≤ 2 * atRet.n) ∧
      ((0x000C : Word).toNat % 2 = 0 ∧ (0x000C : Word).toNat ≤ 2 * atRet.n) := by decide

/-- A full stack; and with room an odd destination, and the first one above `2N`. -/
theorem witness_CallImmediateFaults :
    let s := { atRet with cs := [4, 8] }
    (s.cfg.mode = .flow ∧ s.cs.length = s.cfg.sd) ∧
    (atRet.cfg.mode = .flow ∧ atRet.cs.length ≠ atRet.cfg.sd ∧ (0x0001 : Word).toNat % 2 = 1 ∧
      2 * atRet.n < (0x000E : Word).toNat) := by decide

theorem witness_OtherInstructionsAreSteppedOver :
    atRet.cfg.mode = .flow ∧ SteppedOver (.mov 0 r5 r5) ∧ SteppedOver (.call 0 r5) := by
  refine ⟨by decide, trivial, fun d h => ?_⟩
  simp [r5, immediate] at h

theorem witness_InvalidFollowsThePolicy :
    (atRet.cfg.mode = .flow ∧ atRet.cfg.policy = .skip) ∧
    (({ atRet with cfg := { flowCfg with policy := .halt } } : State).cfg.policy = .halt) := by decide

/-- A visited candidate before, the first word and the end marker as the one resumed, one behind. -/
theorem witness_RetResumesAtTheFirstUnvisitedCandidate :
    let s := { atRet with bq := [8, 2, 6] }
    let t := { atRet with bq := [12] }
    (s.cfg.mode = .flow ∧ s.bq = [8] ++ 2 :: [6] ∧ (∀ x ∈ [8], SeenBy s x) ∧ ¬ SeenBy s 2 ∧ ValidTarget s.n 2) ∧
    (t.bq = [] ++ 12 :: [] ∧ ¬ SeenBy t 12 ∧ ValidTarget t.n 12) := by unfold SeenBy; decide

theorem witness_RetPopsTheCallStack :
    atRet.cfg.mode = .flow ∧ (∀ x ∈ atRet.bq, SeenBy atRet x) ∧ atRet.cs = 4 :: [] ∧ ValidTarget atRet.n 4 := by
  unfold SeenBy; decide

theorem witness_RetExhaustsTheWalk :
    let s := { atRet with cs := [] }
    s.cfg.mode = .flow ∧ (∀ x ∈ s.bq, SeenBy s x) ∧ s.cs = [] := by unfold SeenBy; decide

/-- An odd, a negative and a too large candidate. -/
theorem witness_RetBadCandidateFaults :
    let s := { atRet with bq := [8, 3] }
    let t := { atRet with bq := [-2] }
    let u := { atRet with bq := [14] }
    (s.cfg.mode = .flow ∧ s.bq = [8] ++ 3 :: [] ∧ (∀ x ∈ [8], SeenBy s x) ∧ ¬ ValidTarget s.n 3) ∧
    (t.bq = [] ++ -2 :: [] ∧ ¬ ValidTarget t.n (-2)) ∧ (u.bq = [] ++ 14 :: [] ∧ ¬ ValidTarget u.n 14) := by
  unfold SeenBy; decide

theorem witness_LinearScanStepsOverEverything :
    (loaded linearCfg p1).cfg.mode = .linear ∧ (loaded linearCfg p1).cfg.policy = .skip ∧ Instr.ret 0 ≠ .invalid := by
  decide

theorem witness_LinearHaltStopsAtInvalid :
    let s := loaded { linearCfg with policy := .halt } p1
    s.cfg.mode = .linear ∧ s.cfg.policy = .halt := by decide

/-- Instructions of each kind the frame tells apart, in both modes. -/
theorem witness_ExecFrame :
    exec (.mov 0 r5 r5) atRet = .next (nextOf (exec (.mov 0 r5 r5) atRet)) ∧
    exec (.jmp 2 6) atRet = .next (nextOf (exec (.jmp 2 6) atRet)) ∧
    exec (.ret 0) (loaded linearCfg p1) = .next (nextOf (exec (.ret 0) (loaded linearCfg p1))) ∧
    (∀ c off disp, Instr.invalid ≠ mkJump c off disp) := by
  refine ⟨rfl, rfl, rfl, fun c off disp => ?_⟩
  cases c <;> simp [mkJump]

theorem witness_WordMemoryIsNeverWritten : step atRet = .next (nextOf (step atRet)) := rfl

theorem witness_FlowStepMarksItsStart :
    atRet.status = .run ∧ atRet.cfg.mode = .flow ∧ fetch atRet = .instr (.ret 0) [0x4130] ∧
      step atRet = .next (nextOf (step atRet)) ∧
    fetch { atRet with bq := [10], cs := [] } = .instr (.ret 0) [0x4130] ∧
      ([10] : List Int) = [addr ({ atRet with bq := [10], cs := [] } : State).idx] :=
  ⟨by decide, by decide, by decide, rfl, by decide, by decide⟩

theorem witness_StepEmitsAtMostOneRecord :
    step atRet = .next (nextOf (step atRet)) ∧ (nextOf (step atRet)).records ≠ atRet.records := ⟨rfl, by decide⟩

/-- A step into each of the four causes, BAD_TARGET from a CALL, from a candidate and from a stacked address. -/
theorem witness_FaultEntryIsPrecise :
    let goes := fun (s : State) (c : Cause) =>
      s.status = .run ∧ (nextOf (step s)).status = .fault ∧ (nextOf (step s)).cause = c
    goes (loaded flowCfg [0x4415]) .truncated ∧
    goes { loaded flowCfg [0x3C02] with bq := [0, 8] } .queueOverflow ∧
    goes { loaded flowCfg [0x12B0, 0x0000] with cs := [4, 8] } .stackOverflow ∧
    goes (loaded flowCfg [0x12B0, 0x0009]) .badTarget ∧
    goes { loaded flowCfg [0x4130] with bq := [-2] } .badTarget ∧
    goes { loaded flowCfg [0x4130] with cs := [9] } .badTarget ∧
    step (loaded flowCfg [0x12B0, 0x0009]) = .next (nextOf (step (loaded flowCfg [0x12B0, 0x0009]))) :=
  ⟨by decide, by decide, by decide, by decide, by decide, by decide, rfl⟩

theorem witness_OnlyFlowInstructionsFault :
    let t := { atRet with bq := [0, 8] }
    t.status = .run ∧ exec (.jmp 2 6) t = .next (nextOf (exec (.jmp 2 6) t)) ∧
      (nextOf (exec (.jmp 2 6) t)).status = .fault := ⟨by decide, rfl, by decide⟩

theorem witness_OnlyCallAndRetRedirectTheCursor :
    atRet.status = .run ∧ step atRet = .next (nextOf (step atRet)) ∧ (nextOf (step atRet)).status = .run :=
  ⟨by decide, rfl, by decide⟩

theorem witness_StepKeepsTheInvariant : atRet.Inv ∧ step atRet = .next (nextOf (step atRet)) := ⟨witness_inv, rfl⟩

/-- An input that fits, and one of odd length. -/
theorem witness_LaunchMeetsTheInvariant :
    launch flowCfg (bytesOf p1) = .next (loaded flowCfg p1) ∧
    launch flowCfg [1, 2, 3] = .next (nextOf (launch flowCfg [1, 2, 3])) := ⟨rfl, rfl⟩

/-- The first word, the end marker, and a terminal state. -/
theorem witness_InvariantStatesAlwaysStep :
    (loaded flowCfg p1).CursorInRange ∧ ({ loaded flowCfg p1 with idx := 7 } : State).CursorInRange ∧
    ({ loaded flowCfg p1 with idx := 7, status := .endOfStream } : State).CursorInRange ∧
    ({ loaded flowCfg p1 with idx := 7, status := .endOfStream } : State).status ≠ .run := by decide

theorem witness_DecoderReadsBackTheEncoding :
    (Instr.mov 0 ⟨3, .const1, none, none⟩ ⟨2, .absolute, some 0xFFFF, none⟩).decodedForm = true := by decide

/-- A normalized constant, an idiom, and the two ends of the jump offset. -/
theorem witness_PipelineReadsBackTheEncoding :
    (Instr.xor 0 ⟨0, .autoinc, none, some (-1)⟩ r5).wellFormed = true ∧ (Instr.inc 1 r5).wellFormed = true ∧
    (Instr.jmp (-512) (-1022)).wellFormed = true ∧ (Instr.jmp 511 1024).wellFormed = true := by decide

theorem witness_DecodedInstructionIsWellFormed :
    decode 0x4596 [0x0002, 0x0004] =
      .ok (.mov 0 ⟨5, .indexed, some 0x0002, none⟩ ⟨6, .indexed, some 0x0004, none⟩) 3 := by decide

theorem witness_EncoderRestoresTheWords :
    decode 0x4596 [0x0002, 0x0004] =
      .ok (.mov 0 ⟨5, .indexed, some 0x0002, none⟩ ⟨6, .indexed, some 0x0004, none⟩) 3 ∧
    Instr.mov 0 ⟨5, .indexed, some 0x0002, none⟩ ⟨6, .indexed, some 0x0004, none⟩ ≠ .invalid := by decide

theorem witness_TruncationExactlyWhenWordsAreMissing :
    decode 0x4596 [0x0002] = .trunc 3 ∧ instrLength 0x4596 = 3 ∧
    decode 0x4596 [] = .trunc 3 ∧ decode 0x4516 [] = .trunc 2 ∧ instrLength 0x4516 = 2 := by decide

theorem witness_DecodeReadsOnlyConsumedWords :
    decode 0x1025 [0x1234] = .ok (.rrc 0 ⟨5, .indirect, none, none⟩) 1 := by decide

/-- Both sides of every edge of the three ranges. -/
theorem witness_InvalidExactlyInThreeRanges :
    decode 0x0FFF [] = .ok .invalid 1 ∧ decode 0x1380 [] = .ok .invalid 1 ∧ decode 0x13FF [] = .ok .invalid 1 ∧
    decode 0x1400 [] = .ok .invalid 1 ∧ decode 0x1FFF [] = .ok .invalid 1 ∧
    decode 0x1000 [] ≠ .ok .invalid 1 ∧ decode 0x137F [] ≠ .ok .invalid 1 ∧ decode 0x2000 [] ≠ .ok .invalid 1 := by
  decide

/-- Both sides of every edge of the flavors. -/
theorem witness_FlavorsAreWordRanges :
    flavor 0x0FFF = .double ∧ flavor 0x1000 = .single ∧ flavor 0x13FF = .single ∧ flavor 0x1400 = .double ∧
    flavor 0x1FFF = .double ∧ flavor 0x2000 = .jump ∧ flavor 0x3FFF = .jump ∧ flavor 0x4000 = .double := by decide

theorem witness_JumpWordsDecodeByTheOffsetLaw :
    flavor 0x3E00 = .jump ∧ signedOffset 0x3E00 = -512 ∧ flavor 0x3DFF = .jump ∧ signedOffset 0x3DFF = 511 := by decide

theorem witness_JumpTargetIsAnUnwrappedInteger :
    let s := loaded flowCfg [0x3E00]
    s.status = .run ∧ s.cfg.mode = .flow ∧ s.bq.length ≠ s.cfg.qd ∧ fetchWindow s = some (0x3E00, []) ∧
      flavor 0x3E00 = .jump := by decide

/-- ABSOLUTE and a constant alias, each as the decoder and as the pipeline gives it. -/
theorem witness_SingleOperandAliasesStay :
    (asSingle (.push 0 ⟨2, .absolute, none, none⟩) = some (.push, 0, ⟨2, .absolute, none, none⟩) ∧
      decode 0x1212 [] = .ok (.push 0 ⟨2, .absolute, none, none⟩) 1 ∧
      resolve 0x1212 [] = .ok (.push 0 ⟨2, .absolute, none, none⟩) 1) ∧
    (asSingle (.push 0 ⟨3, .const2, none, none⟩) = some (.push, 0, ⟨3, .const2, none, none⟩) ∧
      constValue .const2 ≠ none ∧
      decode 0x1223 [] = .ok (.push 0 ⟨3, .const2, none, none⟩) 1 ∧
      resolve 0x1223 [] = .ok (.push 0 ⟨3, .const2, none, none⟩) 1) := by decide

/-- One source for each clause. -/
theorem witness_NormalizerRewritesConstantSources :
    asDouble (.jmp 2 6) = none ∧
    [Mode.const0, .const1, .const2, .const4, .const8, .constNeg1, .indirect].map
        (fun m => (normSrc ⟨3, m, none, none⟩).cg) =
      [some 0, some 1, some 2, some 4, some 8, some (-1), none] := by decide

theorem witness_PipelineStagesAreIdempotent :
    recognize (.push 0 r5) = none ∧
    normalizeInstr (.mov 0 ⟨3, .const2, none, none⟩ r5) = mkDouble .mov 0 ⟨0, .autoinc, none, some 2⟩ r5 := by decide

/-- An instruction for each of MOV's rows, and the immediate in both its forms. -/
theorem witness_MovIdiomRows :
    recognize (.mov 0 ⟨0, .autoinc, none, some 0⟩ r5) = some (.clr 0 r5) ∧ Immediate 0 ⟨0, .autoinc, none, some 0⟩ ∧
    Immediate 0 ⟨0, .autoinc, some 0, none⟩ ∧
    recognize (.mov 0 r5 r5) = some (.nop 0) ∧
    recognize (.mov 0 ⟨1, .autoinc, none, none⟩ ⟨0, .indexed, some 4, none⟩) = some (.ret 0) ∧
    recognize (.mov 0 ⟨1, .autoinc, none, none⟩ r5) = some (.pop 0 r5) ∧
    recognize (.mov 0 r5 ⟨0, .direct, none, none⟩) = some (.br 0 r5) := by
  refine ⟨by decide, ⟨rfl, rfl, .inl rfl⟩, ⟨rfl, rfl, .inr ⟨rfl, 0, rfl, rfl⟩⟩, by decide, by decide, by decide, by decide⟩

theorem witness_FlagIdiomRows :
    [1, 2, 4, 8].map (fun v => recognize (.bic 1 (constSource v) ⟨2, .direct, none, none⟩)) =
      [some (.clrc 1), some (.clrz 1), some (.clrn 1), some (.dint 1)] ∧
    [1, 2, 4, 8].map (fun v => recognize (.bis 1 (constSource v) ⟨2, .direct, none, none⟩)) =
      [some (.setc 1), some (.setz 1), some (.setn 1), some (.eint 1)] := by decide

/-- Each row; an ADD of 1 to register 0; an opcode with a row and an instruction with none. -/
theorem witness_ArithmeticIdiomRows :
    recognize (.add 0 r5 r5) = some (.rla 0 r5) ∧ recognize (.add 0 (constSource 1) r5) = some (.inc 0 r5) ∧
    recognize (.add 0 (constSource 1) ⟨0, .direct, none, none⟩) = some (.rla 0 ⟨0, .direct, none, none⟩) ∧
    recognize (.addc 0 r5 r5) = some (.rla 0 r5) ∧ recognize (.cmp 0 (constSource 0) r5) = some (.tst 0 r5) ∧
    recognize (.sub 0 (constSource 1) r5) = some (.dec 0 r5) ∧ recognize (mkDouble .sub 0 (constSource 1) r5) ≠ none ∧
    asDouble (.jmp 2 6) = none := by decide

theorem witness_SevenPseudoOpcodesAreNeverProduced :
    recognize (mkDouble .mov 1 r5 ⟨0, .direct, none, none⟩) = some (.br 1 r5) ∧
    recognize (mkDouble .add 1 r5 r5) = some (.rla 1 r5) := by decide

theorem witness_LinearIgnoresTheReachabilityMemories :
    (loaded linearCfg p1).cfg.mode = .linear ∧ step (loaded linearCfg p1) = .next (nextOf (step (loaded linearCfg p1))) :=
  ⟨by decide, rfl⟩

theorem witness_SentinelIsNeverRead : step atRet = .next (nextOf (step atRet)) := rfl

theorem witness_LinearRunTerminates :
    (loaded linearCfg p1).CursorInRange ∧ (loaded linearCfg p1).cfg.mode = .linear := by decide

theorem witness_TerminalStatesPersist : ({ atRet with status := .exhausted } : State).status ≠ .run := by decide

theorem witness_StackedReturnNeverFaults :
    (∀ a ∈ atRet.cs, ValidTarget atRet.n a) ∧ atRet.status = .run ∧ atRet.cfg.mode = .flow ∧
      fetch atRet = .instr (.ret 0) [0x4130] ∧ (∀ x ∈ atRet.bq, SeenBy atRet x) ∧ atRet.cs = 4 :: [] := by
  unfold SeenBy; decide

/-- The two ends of the address range and of the index range for `N = 4` (95_test_vectors.md part 1.2). -/
theorem witness_AddressAndIndexAreInverse :
    ((0 : Int) % 2 = 0 ∧ (8 : Int) % 2 = 0 ∧ (8 : Int) ≤ 2 * ((4 : Nat) : Int)) ∧
    [1, 2, 3, 4, 5].map addr = [0, 2, 4, 6, 8] ∧ [0, 2, 4, 6, 8].map index = [1, 2, 3, 4, 5] := by decide

/-- An empty input and one that fills the word memory. -/
theorem witness_LoadAssemblesLittleEndianWords :
    (([] : List Byte).length % 2 = 0 ∧ ([] : List Byte).length ≤ 2 * flowCfg.nmax) ∧
    ((List.replicate 32 (1 : Byte)).length % 2 = 0 ∧ (List.replicate 32 (1 : Byte)).length ≤ 2 * flowCfg.nmax) := by
  decide

theorem witness_LaunchLeavesTheResetValues :
    (bytesOf p1).length % 2 = 0 ∧ (bytesOf p1).length ≤ 2 * flowCfg.nmax := by decide

/-- The first length that does not fit, odd too (log 16), and the largest odd one that does. -/
theorem witness_LoaderRefusals :
    2 * flowCfg.nmax < (List.replicate 33 (1 : Byte)).length ∧
    (List.replicate 31 (1 : Byte)).length ≤ 2 * flowCfg.nmax ∧ (List.replicate 31 (1 : Byte)).length % 2 = 1 := by
  decide

end Sys2Proof.Tests
end

section
/-! PROOFS. The state family (10_state.md): what a decoded instruction's length says, the invariant under each update of
the state, and the statements O26, O29, O44 and O52. -/

namespace Sys2Proof.Machine

/-! ## What an answer of the decoder says about its length (30_encoding.md R96, R103) -/

/-- The words an answer consumed are at hand, and what stands behind them does not matter to it. -/
abbrev RestsOnItsWords (dec : List Word → Decoded) (exts : List Word) (i : Instr) (len : Nat) : Prop :=
  1 ≤ len ∧ len ≤ exts.length + 1 ∧ ∀ more, dec (exts.take (len - 1) ++ more) = .ok i len

theorem decodeJump_restsOnItsWords {w0 : Word} {exts : List Word} {d : Instr} {len : Nat}
    (h : decodeJump w0 = .ok d len) : RestsOnItsWords (fun _ => decodeJump w0) exts d len := by
  have hlen : 1 = len := (Decoded.ok.inj h).2
  exact ⟨by omega, by omega, fun _ => h⟩

theorem decodeSingle_restsOnItsWords {w0 : Word} {exts : List Word} {d : Instr} {len : Nat}
    (h : decodeSingle w0 exts = .ok d len) : RestsOnItsWords (decodeSingle w0) exts d len := by
  unfold RestsOnItsWords
  unfold decodeSingle at h ⊢
  cases hop : sopOf (field w0 7 3) with
  | none =>
    simp only [hop, Decoded.ok.injEq] at h ⊢
    simp [← h.2, h.1]
  | some op =>
    simp only [hop] at h ⊢
    cases hn : needsExtS (field w0 0 4) (modeTable (field w0 0 4) (field w0 4 2)) with
    | false =>
      simp only [hn, Bool.false_eq_true, if_false, Decoded.ok.injEq] at h ⊢
      simp [← h.2, h.1]
    | true =>
      cases exts with
      | nil => simp [hn] at h
      | cons w1 rest =>
        simp only [hn, if_true, Decoded.ok.injEq] at h ⊢
        simp [← h.2, h.1]

theorem decodeDouble_restsOnItsWords {w0 : Word} {exts : List Word} {d : Instr} {len : Nat}
    (h : decodeDouble w0 exts = .ok d len) : RestsOnItsWords (decodeDouble w0) exts d len := by
  unfold RestsOnItsWords
  unfold decodeDouble at h ⊢
  cases hop : dopOf (field w0 12 4) with
  | none =>
    simp only [hop, Decoded.ok.injEq] at h ⊢
    simp [← h.2, h.1]
  | some op =>
    simp only [hop] at h ⊢
    generalize needsExtD (field w0 8 4) _ = srcExt at h ⊢
    generalize needsExtD (field w0 0 4) _ = dstExt at h ⊢
    match srcExt, dstExt, exts with
    | false, false, _ | true, false, _ :: _ | false, true, _ :: _ | true, true, _ :: _ :: _ =>
      simp only [Decoded.ok.injEq] at h ⊢
      simp [← h.2, h.1]
    | true, false, [] | false, true, [] | true, true, [] | true, true, [_] => simp at h

/-- R96, R103: every answer of the decoder rests on the words it consumed. -/
theorem decode_restsOnItsWords {w0 : Word} {exts : List Word} {d : Instr} {len : Nat}
    (h : decode w0 exts = .ok d len) : RestsOnItsWords (decode w0) exts d len := by
  cases hf : flavor w0 with
  | jump =>
    have same : decode w0 = fun _ => decodeJump w0 := funext fun _ => decode_of_jump _ hf
    rw [same] at h ⊢
    exact decodeJump_restsOnItsWords h
  | single =>
    have same : decode w0 = decodeSingle w0 := funext fun _ => decode_of_single _ hf
    rw [same] at h ⊢
    exact decodeSingle_restsOnItsWords h
  | double =>
    have same : decode w0 = decodeDouble w0 := funext fun _ => decode_of_double _ hf
    rw [same] at h ⊢
    exact decodeDouble_restsOnItsWords h

/-- An answer of the pipeline is one of the decoder, normalized and recognized (R270). -/
theorem resolve_eq_ok {w0 : Word} {exts : List Word} {fin : Instr} {len : Nat} :
    resolve w0 exts = .ok fin len ↔ ∃ d, decode w0 exts = .ok d len ∧ final (normalizeInstr d) = fin := by
  unfold resolve
  cases decode w0 exts with
  | trunc need => simp
  | ok d l => simp [and_comm]

/-- R270: the pipeline keeps the decoder's length, and rests on the same words. -/
theorem resolve_restsOnItsWords {w0 : Word} {exts : List Word} {fin : Instr} {len : Nat}
    (h : resolve w0 exts = .ok fin len) : RestsOnItsWords (resolve w0) exts fin len := by
  obtain ⟨d, hd, hfin⟩ := resolve_eq_ok.mp h
  obtain ⟨hpos, hle, hmore⟩ := decode_restsOnItsWords hd
  exact ⟨hpos, hle, fun more => resolve_eq_ok.mpr ⟨d, hmore more, hfin⟩⟩

/-! ## What a jump's displacement is (30_encoding.md R98) -/

/-- An idiom is no jump: every row answers a pseudo value (R253). -/
theorem asJump_of_recognize {i p : Instr} (h : recognize i = some p) : asJump p = none := by
  unfold recognize at h
  cases hd : asDouble i with
  | none => simp [hd] at h
  | some parts =>
    obtain ⟨op, bw, src, dst⟩ := parts
    rw [hd] at h
    cases op <;>
      simp only [recognizeMov, recognizeBic, recognizeBis, recognizeAdd, recognizeAddc, recognizeCmp, recognizeSub,
        reduceCtorEq] at h <;>
      split_ifs at h <;> obtain rfl := Option.some.inj h <;> rfl

theorem asJump_final_mkDouble (op : DOp) (bw : Bit) (src dst : Operand) :
    asJump (final (mkDouble op bw src dst)) = none := by
  unfold final
  split
  · exact asJump_of_recognize ‹_›
  · exact asJump_mkDouble op bw src dst

/-- The decoder's answer is a jump by the Offset law, `Invalid`, or an instruction of one of the two operand formats. -/
theorem decode_ok_cases {w0 : Word} {exts : List Word} {d : Instr} {len : Nat} (h : decode w0 exts = .ok d len) :
    (∃ c off, d = mkJump c off (2 * off + 2)) ∨ d = .invalid ∨ (∃ op bw o, d = mkSingle op bw o) ∨
    (∃ op bw src dst, d = mkDouble op bw src dst) := by
  cases hf : flavor w0 with
  | jump =>
    rw [decode_of_jump _ hf] at h
    exact .inl ⟨_, _, (Decoded.ok.inj h).1.symm⟩
  | single =>
    rw [decode_of_single _ hf] at h
    unfold decodeSingle at h
    cases hop : sopOf (field w0 7 3) with
    | none =>
      simp only [hop] at h
      exact .inr (.inl (Decoded.ok.inj h).1.symm)
    | some op =>
      simp only [hop] at h
      refine .inr (.inr (.inl ?_))
      split_ifs at h
      · cases exts with
        | nil => simp at h
        | cons w1 rest => exact ⟨_, _, _, (Decoded.ok.inj h).1.symm⟩
      · exact ⟨_, _, _, (Decoded.ok.inj h).1.symm⟩
  | double =>
    rw [decode_of_double _ hf] at h
    unfold decodeDouble at h
    cases hop : dopOf (field w0 12 4) with
    | none =>
      simp only [hop] at h
      exact .inr (.inl (Decoded.ok.inj h).1.symm)
    | some op =>
      simp only [hop] at h
      generalize needsExtD (field w0 8 4) _ = srcExt at h
      generalize needsExtD (field w0 0 4) _ = dstExt at h
      match srcExt, dstExt, exts with
      | false, false, _ | true, false, _ :: _ | false, true, _ :: _ | true, true, _ :: _ :: _ =>
        exact .inr (.inr (.inr ⟨_, _, _, _, (Decoded.ok.inj h).1.symm⟩))
      | true, false, [] | false, true, [] | true, true, [] | true, true, [_] => simp at h

/-- R98: the displacement of a jump the pipeline answers is even. -/
theorem resolve_jump_disp_even {w0 : Word} {exts : List Word} {c : Cond} {off disp : Int} {len : Nat}
    (h : resolve w0 exts = .ok (mkJump c off disp) len) : disp % 2 = 0 := by
  obtain ⟨d, hd, hfin⟩ := resolve_eq_ok.mp h
  have hj : asJump (final (normalizeInstr d)) = some (c, off, disp) := by rw [hfin, asJump_mkJump]
  rcases decode_ok_cases hd with ⟨c', off', rfl⟩ | rfl | ⟨op, bw, o, rfl⟩ | ⟨op, bw, src, dst, rfl⟩
  · simp only [normalize_mkJump, final_mkJump, asJump_mkJump, Option.some.injEq, Prod.mk.injEq] at hj
    omega
  · simp [asJump] at hj
  · simp at hj
  · simp [asJump_final_mkDouble] at hj

/-! ## The record of an instruction (10_state.md R45) -/

/-- What `fetch` answers, as a record at the cursor: it has the shape of R45 and was read from the stream. -/
theorem record_of_fetch {s : State} {fin : Instr} {words : List Word} (h : fetch s = .instr fin words) :
    (recordOf fin (consume words s)).Ok s.n ∧ (recordOf fin (consume words s)).Read s := by
  rcases fetch_cases s with ⟨-, hf⟩ | ⟨_, _, _, -, -, hf⟩ | ⟨w0, exts, fin', len, hw, hr, hf⟩
  · simp [hf] at h
  · simp [hf] at h
  · obtain ⟨rfl, rfl⟩ : fin' = fin ∧ (w0 :: exts).take len = words := by simpa [hf] using h
    obtain ⟨hpos, hle, hsame⟩ := resolve_restsOnItsWords hr
    obtain ⟨hthree, hin, hread⟩ := fetchWindow_words hw
    have hidx := (fetchWindow_idx hw).1
    have hlen : ((w0 :: exts).take len).length = len := by simp; omega
    refine ⟨⟨rfl, ?_, ?_, addr_even _, addr_nonneg hidx, ?_⟩, ?_, ?_⟩
    · simpa [recordOf, hlen] using hpos
    · simp only [recordOf, consume_wu, hlen]; omega
    · simp only [recordOf, consume_wu, consume_idx, hlen, addr]; omega
    · intro k hk
      simp only [recordOf, consume_wu, consume_idx, hlen] at hk ⊢
      rw [index_addr hidx, hread k (by omega), List.getElem?_take_of_lt hk]
    · have hcons : (w0 :: exts).take len = w0 :: exts.take (len - 1) := by
        obtain ⟨l, rfl⟩ : ∃ l, len = l + 1 := ⟨len - 1, by omega⟩
        rfl
      have := hsame []
      rw [List.append_nil] at this
      simp only [recordOf, consume_wu, hlen]
      simp [hcons, this]

/-! ## The invariant under each update of the state -/

section Updates

variable {s : State}

theorem State.Inv.cause_of_run (h : s.Inv) (hr : s.status = .run) : s.cause = .none :=
  h.cause_none.mpr (by simp [hr])

/-- R280, R282: a move of the cursor inside its range. -/
theorem inv_moveTo {i : Nat} (h : s.Inv) (hr : s.status = .run) (hpos : 1 ≤ i) (hle : i ≤ s.n + 1) :
    (moveTo i s).Inv :=
  { h with
    idx_pos := hpos
    idx_le := hle
    fault_at := by simp [hr]
    ended_at := by simp [hr] }

/-- R312: fault entry in `RUN`, with any cause but NONE. -/
theorem inv_raiseFault {c : Cause} {info : Int} (h : s.Inv) (hr : s.status = .run) (hc : c ≠ .none) :
    (raiseFault c info s).Inv :=
  { h with
    wu_last := fun _ => h.wu_last (by simp [h.cause_of_run hr])
    cause_none := by simp [hc]
    addr_zero := by simp
    fault_at := by simp
    ended_at := by simp
    exhausted_empty := by simp
    stopped_policy := by simp }

/-- R271, R279, R281: a terminal state that is no fault, met where its rule says. -/
theorem inv_stop {st : Status} (h : s.Inv) (hr : s.status = .run) (hst : st ≠ .fault)
    (hend : st = .endOfStream → s.idx = s.n + 1)
    (hexhausted : st = .exhausted → s.cfg.mode = .flow ∧ s.bq = [] ∧ s.cs = [])
    (hhalt : st = .stoppedInvalid → s.cfg.policy = .halt) : (stop st s).Inv :=
  { h with
    cause_none := by simp [h.cause_of_run hr, hst]
    addr_zero := fun _ => h.addr_zero (by simp [hr])
    fault_at := fun hfault => absurd hfault hst
    ended_at := hend
    exhausted_empty := hexhausted
    stopped_policy := hhalt }

/-- R275, R277: a queue of at most QD even targets of emitted jumps. -/
theorem inv_setQueue {q : List Int} (h : s.Inv) (hr : s.status = .run) (hflow : s.cfg.mode = .flow)
    (hle : q.length ≤ s.cfg.qd) (hq : ∀ t ∈ q, t % 2 = 0 ∧ ∃ r ∈ s.records, r.JumpsTo t) : (setQueue q s).Inv :=
  { h with
    bq_le := hle
    bq_even := fun t ht => (hq t ht).1
    bq_jumps := fun t ht => (hq t ht).2
    linear_empty := by simp [hflow]
    exhausted_empty := by simp [hr] }

/-- R277: what a drain leaves of the queue. -/
theorem inv_setQueue_suffix {q : List Int} (h : s.Inv) (hr : s.status = .run) (hflow : s.cfg.mode = .flow)
    (hq : q <:+ s.bq) : (setQueue q s).Inv :=
  inv_setQueue h hr hflow (hq.length_le.trans h.bq_le) fun t ht =>
    ⟨h.bq_even t (hq.mem ht), h.bq_jumps t (hq.mem ht)⟩

/-- R276, R278: a stack of at most SD valid return addresses of emitted CALLs. -/
theorem inv_setStack {c : List Int} (h : s.Inv) (hr : s.status = .run) (hflow : s.cfg.mode = .flow)
    (hle : c.length ≤ s.cfg.sd) (hc : ∀ a ∈ c, ValidTarget s.n a ∧ ∃ r ∈ s.records, r.ReturnsTo a) :
    (setStack c s).Inv :=
  { h with
    cs_le := hle
    cs_valid := fun a ha => (hc a ha).1
    cs_calls := fun a ha => (hc a ha).2
    linear_empty := by simp [hflow]
    exhausted_empty := by simp [hr] }

/-- R276: the push of a CALL. -/
theorem inv_setStack_push {a : Int} (h : s.Inv) (hr : s.status = .run) (hflow : s.cfg.mode = .flow)
    (hroom : s.cs.length ≠ s.cfg.sd) (hv : ValidTarget s.n a) (hc : ∃ r ∈ s.records, r.ReturnsTo a) :
    (setStack (a :: s.cs) s).Inv := by
  refine inv_setStack h hr hflow ?_ ?_
  · have := h.cs_le
    rw [List.length_cons]; omega
  · rintro b (_ | ⟨_, hb⟩)
    · exact ⟨hv, hc⟩
    · exact ⟨h.cs_valid b hb, h.cs_calls b hb⟩

/-- R278: the pop of a RET. -/
theorem inv_setStack_pop {a : Int} {rest : List Int} (h : s.Inv) (hr : s.status = .run) (hflow : s.cfg.mode = .flow)
    (hs : s.cs = a :: rest) : (setStack rest s).Inv := by
  have hsub : ∀ b ∈ rest, b ∈ s.cs := by simp [hs]; tauto
  refine inv_setStack h hr hflow ?_ fun b hb => ⟨h.cs_valid b (hsub b hb), h.cs_calls b (hsub b hb)⟩
  have := h.cs_le
  rw [hs, List.length_cons] at this; omega

/-- R280: a resume, whether it moves the cursor or faults. -/
theorem inv_resume {t : Int} (h : s.Inv) (hr : s.status = .run) : (resume t s).Inv := by
  rcases resume_cases t s with ⟨⟨-, h0, hle⟩, heq⟩ | ⟨-, heq⟩ <;> rw [heq]
  · exact inv_moveTo h hr (index_pos h0) (index_le hle)
  · exact inv_raiseFault h hr (by simp)

/-- R274, R45: emitting the record of the fetched instruction, with `VIS` grown by its start in FLOW mode. -/
theorem inv_emit {fin : Instr} {words : List Word} {v : List Nat} (h : s.Inv)
    (hf : fetch s = .instr fin words) (hrising : v.Pairwise (· < ·))
    (hv : ∀ i, i ∈ v ↔ (s.cfg.mode = .flow ∧ i = s.idx) ∨ i ∈ s.vis) :
    ({ emit fin (consume words s) with vis := v } : State).Inv := by
  obtain ⟨hok, hread⟩ := record_of_fetch hf
  have ⟨_, hpos, hthree, _, _, hend⟩ := hok
  have hkept : ∀ {P : Record → Prop}, (∃ r ∈ s.records, P r) →
      ∃ r ∈ s.records ++ [recordOf fin (consume words s)], P r :=
    fun ⟨r, hr, hp⟩ => ⟨r, List.mem_append_left _ hr, hp⟩
  have hall : ∀ {P : Record → Prop}, (∀ r ∈ s.records, P r) → P (recordOf fin (consume words s)) →
      ∀ r ∈ s.records ++ [recordOf fin (consume words s)], P r :=
    fun hold hnew => List.forall_mem_append.mpr ⟨hold, List.forall_mem_singleton.mpr hnew⟩
  simp only [recordOf, consume_wu, consume_idx, addr] at hthree hend hpos
  exact { h with
    wu_le := hthree
    wu_last := fun _ => by simp
    vis_rising := hrising
    vis_in := fun i hi => by
      rcases (hv i).mp hi with ⟨-, rfl⟩ | hi
      · have hin : s.idx ≤ s.n := by omega
        exact ⟨h.idx_pos, hin⟩
      · exact h.vis_in i hi
    vis_started := fun i hi => by
      rcases (hv i).mp hi with ⟨hm, rfl⟩ | hi
      · exact ⟨hm, recordOf fin (consume words s), by simp [recordOf], rfl⟩
      · obtain ⟨hm, hex⟩ := h.vis_started i hi
        exact ⟨hm, hkept hex⟩
    started_vis := fun hm => hall (fun r hr => (hv _).mpr (.inr (h.started_vis hm r hr)))
      ((hv _).mpr (.inl ⟨hm, index_addr h.idx_pos⟩))
    bq_jumps := fun t ht => hkept (h.bq_jumps t ht)
    cs_calls := fun a ha => hkept (h.cs_calls a ha)
    records_ok := hall h.records_ok hok
    records_read := hall h.records_read hread }

end Updates

/-! ## The invariant under the action of an emitted instruction -/

section Actions

variable {i : Instr} {s : State}

/-- R287: the words of the emitted record lie in the stream, so the cursor can move past them. -/
theorem State.Inv.room (h : s.Inv) (hrec : recordOf i s ∈ s.records) :
    1 ≤ s.wu.length ∧ s.idx + s.wu.length ≤ s.n + 1 := by
  obtain ⟨-, hpos, -, -, -, hend⟩ := h.records_ok _ hrec
  simp only [recordOf, addr] at hpos hend
  omega

/-- R282: stepping over the instruction. -/
theorem inv_advance (h : s.Inv) (hr : s.status = .run) (hrec : recordOf i s ∈ s.records) : (advance s).Inv := by
  have hpos := h.idx_pos
  obtain ⟨-, hle⟩ := h.room hrec
  exact inv_moveTo h hr (by omega) hle

/-- R273: the action of LINEAR mode. -/
theorem inv_linearAct (h : s.Inv) (hr : s.status = .run) (hrec : recordOf i s ∈ s.records) : (linearAct i s).Inv := by
  rcases linearAct_cases i s with ⟨-, hp, heq⟩ | ⟨-, heq⟩ <;> rw [heq]
  · exact inv_stop h hr (by simp) (by simp) (by simp) (fun _ => hp)
  · exact inv_advance h hr hrec

/-- R281: the two policies on `Invalid`. -/
theorem inv_invalidAct (h : s.Inv) (hr : s.status = .run) (hrec : recordOf i s ∈ s.records) : (invalidAct s).Inv := by
  obtain ⟨hpos, hle⟩ := h.room hrec
  rcases invalidAct_cases s with ⟨hp, heq⟩ | ⟨-, heq⟩ <;> rw [heq]
  · exact inv_stop h hr (by simp) (by simp) (by simp) (fun _ => hp)
  · exact inv_moveTo h hr (by omega) (by omega)

/-- R98, R66: the target of a recorded jump is even, since the pipeline read the jump from the record's words. -/
theorem State.Inv.jumpTarget_even {c : Cond} {off disp : Int} (h : s.Inv)
    (hrec : recordOf (mkJump c off disp) s ∈ s.records) : (addr s.idx + disp) % 2 = 0 := by
  obtain ⟨-, hread⟩ := h.records_read _ hrec
  obtain ⟨w0, -, hres⟩ := Option.map_eq_some_iff.mp hread
  have hdisp := resolve_jump_disp_even hres
  have hstart := addr_even s.idx
  omega

/-- R275, R283: a jump enqueues an even target of its own record, or faults. -/
theorem inv_jumpFlow {c : Cond} {off disp : Int} (h : s.Inv) (hr : s.status = .run) (hflow : s.cfg.mode = .flow)
    (hrec : recordOf (mkJump c off disp) s ∈ s.records) : (jumpFlow disp s).Inv := by
  obtain ⟨hpos, hle⟩ := h.room hrec
  unfold jumpFlow
  rcases jumpAct_cases (addr s.idx + disp) s with ⟨hfree, heq⟩ | ⟨-, heq⟩ <;> rw [heq]
  · have hq : (setQueue (s.bq ++ [addr s.idx + disp]) s).Inv := by
      refine inv_setQueue h hr hflow ?_ ?_
      · have := h.bq_le
        rw [List.length_append, List.length_singleton]; omega
      · intro t ht
        rcases List.mem_append.mp ht with ht | ht
        · exact ⟨h.bq_even t ht, h.bq_jumps t ht⟩
        · obtain rfl := List.mem_singleton.mp ht
          exact ⟨h.jumpTarget_even hrec, _, hrec, by simp [recordOf]⟩
    exact inv_moveTo hq hr (by omega) (by simp only [setQueue_n]; omega)
  · exact inv_raiseFault h hr (by simp)

/-- R276, R282, R284: a CALL pushes the valid return address of its own record and resumes, faults, or is stepped
over. -/
theorem inv_callFlow {bw : Bit} {opd : Operand} (h : s.Inv) (hr : s.status = .run) (hflow : s.cfg.mode = .flow)
    (hrec : recordOf (.call bw opd) s ∈ s.records) : (callFlow opd s).Inv := by
  rcases callFlow_cases opd s with ⟨d, hd, heq⟩ | ⟨-, heq⟩ <;> rw [heq]
  · rcases callAct_cases (addr s.idx + 2 * (s.wu.length : Int)) (zext16 d) s with ⟨hfree, heq⟩ | ⟨-, heq⟩ <;> rw [heq]
    · have hret : ValidTarget s.n (addr s.idx + 2 * (s.wu.length : Int)) := by
        have := h.idx_pos
        obtain ⟨-, hle⟩ := h.room hrec
        refine ⟨?_, ?_, ?_⟩ <;> unfold addr <;> omega
      have hcall : (recordOf (.call bw opd) s).ReturnsTo (addr s.idx + 2 * (s.wu.length : Int)) :=
        ⟨by simp [recordOf, asSingle, hd], rfl⟩
      exact inv_resume (inv_setStack_push h hr hflow hfree hret ⟨_, hrec, hcall⟩) hr
    · exact inv_raiseFault h hr (by simp)
  · exact inv_advance h hr hrec

/-- R277 to R279: a RET resumes from the queue or from the stack, or exhausts the walk. -/
theorem inv_retAct (h : s.Inv) (hr : s.status = .run) (hflow : s.cfg.mode = .flow) : (retAct s).Inv := by
  have hdrained : (setQueue [] s).Inv := inv_setQueue_suffix h hr hflow List.nil_suffix
  rcases retAct_cases s with ⟨pre, c, rest, hbq, -, -, heq⟩ | ⟨r, rest, -, hcs, heq⟩ | ⟨-, hcs, heq⟩ <;> rw [heq]
  · have hsuffix : rest <:+ s.bq := ⟨pre ++ [c], by simp [hbq]⟩
    exact inv_resume (inv_setQueue_suffix h hr hflow hsuffix) hr
  · exact inv_resume (inv_setStack_pop hdrained hr hflow hcs) hr
  · exact inv_stop hdrained hr (by simp) (by simp) (fun _ => ⟨hflow, rfl, hcs⟩) (by simp)

/-- R275 to R282: every flow action, by the instruction that takes it. -/
theorem inv_flowAct (h : s.Inv) (hr : s.status = .run) (hflow : s.cfg.mode = .flow)
    (hrec : recordOf i s ∈ s.records) : (flowAct i s).Inv := by
  rcases flowAct_cases i with ⟨c, off, disp, rfl, heq⟩ | ⟨bw, opd, rfl, heq⟩ | ⟨bw, -, heq⟩ | ⟨-, heq⟩ |
    ⟨-, -, -, -, heq⟩ <;> rw [heq]
  · exact inv_jumpFlow h hr hflow hrec
  · exact inv_callFlow h hr hflow hrec
  · exact inv_retAct h hr hflow
  · exact inv_invalidAct h hr hrec
  · exact inv_advance h hr hrec

/-- R270: retiring the fetched instruction, in both modes. -/
theorem inv_retire {words : List Word} (h : s.Inv) (hr : s.status = .run) (hf : fetch s = .instr i words) :
    (retire i (flowAct i) (consume words s)).Inv := by
  cases hm : s.cfg.mode with
  | linear =>
    rw [retire_linear (s := consume words s) hm]
    have hemit : (emit i (consume words s)).Inv := inv_emit h hf h.vis_rising (by simp [hm])
    exact inv_linearAct hemit hr (by simp [recordOf])
  | flow =>
    rw [retire_flow (s := consume words s) hm]
    have hemit : (markVisited (emit i (consume words s))).Inv :=
      inv_emit h hf (visInsert_rising h.vis_rising) (by simp [hm])
    exact inv_flowAct hemit hr hm (by simp [recordOf])

end Actions

/-- Settles O26: a step stays, stops at the end marker, faults on a truncation, or retires an instruction, and each of
these keeps the invariant. -/
theorem stepKeepsTheInvariant : Obligations.StepKeepsTheInvariant := by
  unfold Obligations.StepKeepsTheInvariant
  intro s t h hstep
  rcases step_cases hstep with ⟨-, rfl⟩ | ⟨hr, hend, rfl⟩ | ⟨need, hr, -, rfl⟩ | ⟨fin, words, hr, hf, rfl⟩
  · exact h
  · exact inv_stop h hr (by simp) (fun _ => hend) (by simp) (by simp)
  · exact inv_raiseFault h hr (by simp)
  · exact inv_retire h hr hf

/-! ## Every state with its cursor in range steps -/

/-- R65: a cursor on a loaded word has a window. -/
theorem fetchWindow_ne_none {s : State} (hpos : 1 ≤ s.idx) (hle : s.idx ≤ s.n) : fetchWindow s ≠ none := by
  obtain ⟨w0, hw⟩ := Option.isSome_iff_exists.mp ((readWord_isSome s s.idx).mpr ⟨hpos, hle⟩)
  unfold fetchWindow
  rw [hw]
  dsimp only
  split
  · simp
  · split <;> simp

/-- Settles O29: a terminal state answers itself, the end marker ends the run, and a cursor on a loaded word finds a
truncation or an instruction. -/
theorem invariantStatesAlwaysStep : Obligations.InvariantStatesAlwaysStep := by
  unfold Obligations.InvariantStatesAlwaysStep
  rintro s ⟨hpos, hle⟩
  by_cases hr : s.status = .run
  · suffices hnext : ∃ t, step s = .next t by
      obtain ⟨t, ht⟩ := hnext
      exact ⟨t, ht, fun hterm => absurd hr hterm⟩
    by_cases hend : s.idx = s.n + 1
    · exact ⟨stop .endOfStream s, by simp [step, hr, atEnd, hend]⟩
    · rcases fetch_cases s with ⟨hw, -⟩ | ⟨_, _, need, -, -, hf⟩ | ⟨_, _, fin, len, -, -, hf⟩
      · exact absurd hw (fetchWindow_ne_none hpos (by omega))
      · exact ⟨raiseFault .truncated (need : Int) s, by simp [step, hr, atEnd, hend, hf]⟩
      · exact ⟨_, step_of_instr hr hf⟩
  · exact ⟨s, by simp [step, hr], fun _ => rfl⟩

/-! ## The flag idioms (44_pseudo.md R239 to R246) -/

/-- R214: the immediate value is the normalizer's constant, else the word of the `#imm` idiom. -/
theorem srcImm_iff_immediate {k : Int} {src : Operand} : SrcImm k src ↔ Immediate k src := by
  unfold SrcImm Immediate immVal zext16
  cases hcg : src.cg with
  | some v => simp
  | none =>
    cases src.ext with
    | some w => simp +contextual
    | none => simp +contextual

/-- One source has one immediate value. -/
theorem Immediate.unique {j k : Int} {src : Operand} (hj : Immediate j src) (hk : Immediate k src) : j = k := by
  obtain ⟨-, -, hj⟩ := srcImm_iff_immediate.mpr hj
  obtain ⟨-, -, hk⟩ := srcImm_iff_immediate.mpr hk
  exact Option.some.inj (hj.symm.trans hk)

/-- The rows BIC and BIS share: an immediate 1, 2, 4 or 8 on register 2 selects one of four idioms. -/
def flagRow (src dst : Operand) (p1 p2 p4 p8 : Instr) : Option Instr :=
  if SrcImm 1 src ∧ dst.reg = 2 then some p1
  else if SrcImm 2 src ∧ dst.reg = 2 then some p2
  else if SrcImm 4 src ∧ dst.reg = 2 then some p4
  else if SrcImm 8 src ∧ dst.reg = 2 then some p8
  else none

theorem recognize_bic (bw : Bit) (src dst : Operand) :
    recognize (.bic bw src dst) = flagRow src dst (.clrc bw) (.clrz bw) (.clrn bw) (.dint bw) := rfl

theorem recognize_bis (bw : Bit) (src dst : Operand) :
    recognize (.bis bw src dst) = flagRow src dst (.setc bw) (.setz bw) (.setn bw) (.eint bw) := rfl

/-- The order of the four rows does not matter, since a source has one immediate value. -/
theorem flagRow_eq_some {src dst : Operand} {p1 p2 p4 p8 p : Instr} :
    flagRow src dst p1 p2 p4 p8 = some p ↔ dst.reg = 2 ∧
      ((Immediate 1 src ∧ p = p1) ∨ (Immediate 2 src ∧ p = p2) ∨ (Immediate 4 src ∧ p = p4) ∨
       (Immediate 8 src ∧ p = p8)) := by
  have hother : ∀ {j k : Int}, Immediate j src → j ≠ k → ¬ Immediate k src := fun hj hne hk => hne (hj.unique hk)
  unfold flagRow
  split_ifs with h1 h2 h4 h8 <;> rw [srcImm_iff_immediate] at *
  · simp [h1, hother h1.1, eq_comm]
  · simp [h2, hother h2.1, eq_comm]
  · simp [h4, hother h4.1, eq_comm]
  · simp [h8, hother h8.1, eq_comm]
  · simp; tauto

/-- Settles O44: BIC and BIS share the four rows. -/
theorem flagIdiomRows : Obligations.FlagIdiomRows := by
  unfold Obligations.FlagIdiomRows
  intro bw src dst p
  rw [recognize_bic, recognize_bis]
  exact ⟨flagRow_eq_some, flagRow_eq_some⟩

/-! ## Addresses and indices (10_state.md R34) -/

/-- Settles O52: the two conversions undo each other, and each keeps to the other's range. -/
theorem addressAndIndexAreInverse : Obligations.AddressAndIndexAreInverse := by
  unfold Obligations.AddressAndIndexAreInverse
  refine fun n => ⟨fun a heven hpos hle => ?_, fun i hpos hle => ?_⟩
  · exact ⟨addr_index heven hpos, index_pos hpos, index_le hle⟩
  · have hbound : addr i ≤ 2 * (n : Int) := by unfold addr; omega
    exact ⟨index_addr hpos, addr_even i, addr_nonneg hpos, hbound⟩

end Sys2Proof.Machine
end

section
/-! PROOFS. The memory family (20_memory.md): what is at hand at the cursor, what a load puts into the word memory, what
retiring an instruction leaves unchanged, and the statements O2, O19, O20 and O53. -/

namespace Sys2Proof.Machine

/-! ## The fetch window (R65, R103) -/

/-- R47: no word exactly at the sentinel and above N. -/
theorem readWord_eq_none_iff (s : State) (i : Nat) : readWord s i = none ↔ i = 0 ∨ s.n < i := by
  rw [← Option.not_isSome_iff_eq_none, readWord_isSome]
  omega

/-- R65: a window of fewer than three words ends with the stream. -/
theorem fetchWindow_reaches_end {s : State} {w0 : Word} {exts : List Word} (h : fetchWindow s = some (w0, exts))
    (hshort : exts.length < 2) : s.n ≤ s.idx + exts.length := by
  have end_le : ∀ k, readWord s (s.idx + (k + 1)) = none → s.n ≤ s.idx + k := fun k hk => by
    have := (readWord_eq_none_iff s _).mp hk
    omega
  unfold fetchWindow at h
  cases h0 : readWord s s.idx with
  | none => simp [h0] at h
  | some v0 =>
    simp only [h0] at h
    cases h1 : readWord s (s.idx + 1) with
    | none =>
      simp only [h1, Option.some.injEq, Prod.mk.injEq] at h
      obtain ⟨-, rfl⟩ := h
      exact end_le 0 h1
    | some v1 =>
      simp only [h1] at h
      cases h2 : readWord s (s.idx + 2) with
      | none =>
        simp only [h2, Option.some.injEq, Prod.mk.injEq] at h
        obtain ⟨-, rfl⟩ := h
        exact end_le 1 h2
      | some v2 =>
        simp only [h2, Option.some.injEq, Prod.mk.injEq] at h
        obtain ⟨-, rfl⟩ := h
        simp at hshort

/-- R103: `avail = min(3, N + 1 - idx)`. -/
theorem fetchWindow_length {s : State} {w0 : Word} {exts : List Word} (h : fetchWindow s = some (w0, exts)) :
    1 + exts.length = min 3 (s.n + 1 - s.idx) := by
  obtain ⟨hthree, hin, -⟩ := fetchWindow_words h
  by_cases hshort : exts.length < 2
  · have := fetchWindow_reaches_end h hshort
    omega
  · omega

/-- Settles O2: a cursor on a loaded word has a window, whose words and length are known; another cursor has none. -/
theorem fetchWindowHoldsTheNextWords : Obligations.FetchWindowHoldsTheNextWords := by
  unfold Obligations.FetchWindowHoldsTheNextWords
  refine fun s => ⟨fun hpos hle => ?_, fun hout => ?_⟩
  · obtain ⟨⟨w0, exts⟩, hw⟩ := Option.ne_none_iff_exists'.mp (fetchWindow_ne_none hpos hle)
    obtain ⟨-, -, hread⟩ := fetchWindow_words hw
    refine ⟨w0, exts, hw, fetchWindow_length hw, hread 0 (by omega), fun k hk => ?_⟩
    rw [Nat.add_assoc, hread (1 + k) (by omega), Nat.add_comm 1 k, List.getElem?_cons_succ]
  · simp [fetchWindow, (readWord_eq_none_iff s s.idx).mpr hout]

/-! ## Loaded words (R63) -/

/-- R63: the lower-addressed byte is the low half. -/
theorem toNat_wordOfBytes (lo hi : Byte) : (wordOfBytes lo hi).toNat = lo.toNat + 256 * hi.toNat := by
  rw [wordOfBytes, BitVec.toNat_append, ← Nat.shiftLeft_add_eq_or_of_lt lo.isLt, Nat.shiftLeft_eq]
  omega

/-- R340: byte `i` of the input lies at address `i`. -/
theorem getElem?_eq_readByte_loadBytes {b : List Byte} {i : Nat} (h : i < b.length) :
    b[i]? = some (readByte (loadBytes b 0) i) := by
  simp [readByte_loadBytes, h]

/-- R10, R34: reading by the address of an index is reading by the index, where there is no word too. -/
theorem memRead_addr (s : State) (i : Nat) : memRead s (addr i) = readWord s i := by
  unfold memRead
  split_ifs with h
  · obtain ⟨-, hnonneg, -⟩ := h
    rw [index_addr (by unfold addr at hnonneg; omega)]
  · refine ((readWord_eq_none_iff s i).mpr ?_).symm
    unfold addr at h
    omega

/-- R340, R341: the launch of an even input that fits. -/
theorem launch_of_even {cfg : Config} {b : List Byte} (heven : b.length % 2 = 0) (hfit : b.length ≤ 2 * cfg.nmax) :
    launch cfg b = .next { State.resetWith cfg with n := b.length / 2, mem := loadBytes b 0 } := by
  unfold launch
  rw [if_neg (by omega), if_neg (by omega)]

/-- Settles O53: both bytes of each loaded word lie in the input, at the addresses R63 gives them. -/
theorem loadAssemblesLittleEndianWords : Obligations.LoadAssemblesLittleEndianWords := by
  unfold Obligations.LoadAssemblesLittleEndianWords
  intro cfg b heven hfit
  refine ⟨_, launch_of_even heven hfit, rfl, fun i hpos hle => ?_, fun i => (readWord_eq_none_iff _ i).mpr⟩
  have hin : 2 * (i - 1) + 1 < b.length := by
    have : i ≤ b.length / 2 := hle
    omega
  rw [memRead_addr, readWord, if_pos ⟨hpos, hle⟩]
  exact ⟨_, _, _, rfl, rfl, getElem?_eq_readByte_loadBytes (by omega), getElem?_eq_readByte_loadBytes hin,
    toNat_wordOfBytes _ _⟩

/-! ## What retiring an instruction leaves unchanged -/

/-- What an instruction leaves of the flow state, the fault record and STATUS when all it does is move the cursor or, as
`Invalid`, stop the walk (R273, R281, R282). -/
structure PassesBy (i : Instr) (s t : State) : Prop where
  bq : t.bq = s.bq
  cs : t.cs = s.cs
  cause : t.cause = s.cause
  faultAddr : t.faultAddr = s.faultAddr
  faultInfo : t.faultInfo = s.faultInfo
  status : i ≠ .invalid → t.status = s.status

theorem passesBy_moveTo (i : Instr) (k : Nat) (s : State) : PassesBy i s (moveTo k s) :=
  ⟨rfl, rfl, rfl, rfl, rfl, fun _ => rfl⟩

theorem passesBy_stop_invalid (st : Status) (s : State) : PassesBy .invalid s (stop st s) :=
  ⟨rfl, rfl, rfl, rfl, rfl, fun h => absurd rfl h⟩

section Retire

variable {i : Instr} {s : State}

theorem PassesBy.of_emit {t : State} (h : PassesBy i (emit i s) t) : PassesBy i s t := { h with }

theorem PassesBy.of_markVisited {t : State} (h : PassesBy i (markVisited s) t) : PassesBy i s t := { h with }

/-- R273: in LINEAR mode every instruction passes by. -/
theorem linearAct_passesBy (i : Instr) (s : State) : PassesBy i s (linearAct i s) := by
  rcases linearAct_cases i s with ⟨rfl, -, h⟩ | ⟨-, h⟩ <;> rw [h]
  · exact passesBy_stop_invalid _ s
  · exact passesBy_moveTo i _ s

theorem linearAct_same (i : Instr) (s : State) : SameOutside s (linearAct i s) := by
  rcases linearAct_cases i s with ⟨-, -, h⟩ | ⟨-, h⟩ <;> rw [h] <;> constructor <;> rfl

/-- R281, R282: in FLOW mode, every instruction but a jump, an immediate CALL and RET. -/
theorem flowAct_passesBy (hjump : ∀ c off disp, i ≠ mkJump c off disp) (hcall : ∀ bw d, i ≠ .call bw (immediate d))
    (hret : ∀ bw, i ≠ .ret bw) : PassesBy i s (flowAct i s) := by
  rcases flowAct_forms i s with ⟨c, off, disp, hi, -⟩ | ⟨bw, d, _, hi, -⟩ | ⟨bw, hi, -⟩ | ⟨rfl, ⟨-, h⟩ | ⟨-, h⟩⟩ | h
  · exact absurd hi (hjump c off disp)
  · exact absurd hi (hcall bw d)
  · exact absurd hi (hret bw)
  · rw [h]; exact passesBy_stop_invalid _ s
  · rw [h]; exact passesBy_moveTo _ _ s
  · rw [h]; exact passesBy_moveTo _ _ s

/-- R41: only a jump and RET touch the branch queue. -/
theorem flowAct_bq (hjump : ∀ c off disp, i ≠ mkJump c off disp) (hret : ∀ bw, i ≠ .ret bw) :
    (flowAct i s).bq = s.bq := by
  rcases flowAct_forms i s with ⟨c, off, disp, hi, -⟩ | ⟨_, _, _, -, -, ⟨-, h⟩ | ⟨-, -, h⟩ | ⟨-, -, h⟩⟩ | ⟨bw, hi, -⟩ |
    ⟨-, ⟨-, h⟩ | ⟨-, h⟩⟩ | h
  case inl => exact absurd hi (hjump c off disp)
  case inr.inr.inl => exact absurd hi (hret bw)
  all_goals rw [h]; rfl

/-- R42: only an immediate CALL and RET touch the call stack. -/
theorem flowAct_cs (hcall : ∀ bw d, i ≠ .call bw (immediate d)) (hret : ∀ bw, i ≠ .ret bw) :
    (flowAct i s).cs = s.cs := by
  rcases flowAct_forms i s with ⟨_, _, _, -, ⟨-, h⟩ | ⟨-, h⟩⟩ | ⟨bw, d, _, hi, -⟩ | ⟨bw, hi, -⟩ |
    ⟨-, ⟨-, h⟩ | ⟨-, h⟩⟩ | h
  case inr.inl => exact absurd hi (hcall bw d)
  case inr.inr.inl => exact absurd hi (hret bw)
  all_goals rw [h]; rfl

/-- R272, R274: outside the flow state, retiring an instruction appends its record and, in FLOW mode only, marks its
start. -/
theorem retire_same (i : Instr) (s : State) :
    ∃ v, SameOutside { emit i s with vis := v } (retire i (flowAct i) s) ∧
      (∀ j, j ≠ s.idx → (j ∈ v ↔ j ∈ s.vis)) ∧ (s.cfg.mode = .linear → v = s.vis) := by
  cases hm : s.cfg.mode with
  | linear =>
    rw [retire_linear hm]
    exact ⟨s.vis, linearAct_same i (emit i s), fun _ _ => Iff.rfl, fun _ => rfl⟩
  | flow =>
    rw [retire_flow hm]
    refine ⟨visInsert s.idx s.vis, flowAct_same i (markVisited (emit i s)), fun j hj => ?_, by simp⟩
    simp [hj]

theorem retire_linear_passesBy {act : State → State} (hm : s.cfg.mode = .linear) : PassesBy i s (retire i act s) := by
  rw [retire_linear hm]
  exact (linearAct_passesBy i _).of_emit

theorem retire_passesBy (hjump : ∀ c off disp, i ≠ mkJump c off disp) (hcall : ∀ bw d, i ≠ .call bw (immediate d))
    (hret : ∀ bw, i ≠ .ret bw) : PassesBy i s (retire i (flowAct i) s) := by
  cases hm : s.cfg.mode with
  | linear => exact retire_linear_passesBy hm
  | flow =>
    rw [retire_flow hm]
    exact (flowAct_passesBy hjump hcall hret).of_markVisited.of_emit

theorem retire_bq (hjump : ∀ c off disp, i ≠ mkJump c off disp) (hret : ∀ bw, i ≠ .ret bw) :
    (retire i (flowAct i) s).bq = s.bq := by
  cases hm : s.cfg.mode with
  | linear => exact (retire_linear_passesBy hm).bq
  | flow => rw [retire_flow hm, flowAct_bq hjump hret, markVisited_bq, emit_bq]

theorem retire_cs (hcall : ∀ bw d, i ≠ .call bw (immediate d)) (hret : ∀ bw, i ≠ .ret bw) :
    (retire i (flowAct i) s).cs = s.cs := by
  cases hm : s.cfg.mode with
  | linear => exact (retire_linear_passesBy hm).cs
  | flow => rw [retire_flow hm, flowAct_cs hcall hret, markVisited_cs, emit_cs]

end Retire

/-- Settles O19: `exec` retires the instruction, and each part of the frame is a fact about retiring. -/
theorem execFrame : Obligations.ExecFrame := by
  unfold Obligations.ExecFrame
  intro i s t h
  obtain rfl : retire i (flowAct i) s = t := Host.Outcome.next.inj ((exec_eq i s).symm.trans h)
  obtain ⟨v, same, hother, hlinear⟩ := retire_same i s
  refine ⟨same.cfg, same.n, same.sentinel, same.wu, fun a => by rw [same.mem]; rfl, same.records,
    fun j hj => by rw [same.vis]; exact hother j hj, retire_bq, retire_cs, fun hjump hcall hret => ?_, fun hm => ?_⟩
  · have hpass : PassesBy i s (retire i (flowAct i) s) := retire_passesBy hjump hcall hret
    exact ⟨hpass.cause, hpass.faultAddr, hpass.faultInfo, hpass.status⟩
  · have hpass : PassesBy i s (retire i (flowAct i) s) := retire_linear_passesBy hm
    exact ⟨same.vis.trans (hlinear hm), hpass.bq, hpass.cs, hpass.cause, hpass.faultAddr, hpass.faultInfo⟩

/-! ## The word memory is never written (R62) -/

/-- R60: a word is read from the memory and N alone. -/
theorem readWord_congr {s t : State} (hmem : t.mem = s.mem) (hn : t.n = s.n) (i : Nat) :
    readWord t i = readWord s i := by
  unfold readWord
  rw [hmem, hn]

/-- R44, R62: whichever way a step goes, it keeps the memory, N, the sentinel and the parameters. -/
theorem step_keeps_stream {s t : State} (h : step s = .next t) :
    t.mem = s.mem ∧ t.n = s.n ∧ t.sentinel = s.sentinel ∧ t.cfg = s.cfg := by
  rcases step_cases h with ⟨-, rfl⟩ | ⟨-, -, rfl⟩ | ⟨need, -, -, rfl⟩ | ⟨fin, words, -, -, rfl⟩
  · exact ⟨rfl, rfl, rfl, rfl⟩
  · exact ⟨rfl, rfl, rfl, rfl⟩
  · exact ⟨rfl, rfl, rfl, rfl⟩
  · obtain ⟨v, same, -, -⟩ := retire_same fin (consume words s)
    exact ⟨same.mem, same.n, same.sentinel, same.cfg⟩

/-- Settles O20: the words are read from what a step keeps. -/
theorem wordMemoryIsNeverWritten : Obligations.WordMemoryIsNeverWritten := by
  unfold Obligations.WordMemoryIsNeverWritten
  intro s t h
  obtain ⟨hmem, hn, hsentinel, hcfg⟩ := step_keeps_stream h
  exact ⟨readWord_congr hmem hn, hmem, hn, hsentinel, hcfg⟩

end Sys2Proof.Machine
end

section
/-! PROOFS. The encoding family (30_encoding.md): the words an instruction of each format is read from, one case analysis
of the decoder's answer, and the statements O30, O32, O33, O34, O35 and O37. -/

namespace Sys2Proof.Machine

/-! ## A word is its fields (R82, R83, R84) -/

theorem field_append (w : Word) (n len lo : Nat) :
    field w (lo + len) n ++ field w lo len = field w lo (n + len) :=
  BitVec.extractLsb'_append_extractLsb'_eq_extractLsb' rfl

theorem field_whole (w : Word) : field w 0 16 = w := BitVec.extractLsb'_eq_self

theorem jumpFields_append (w : Word) : field w 13 3 ++ field w 10 3 ++ field w 0 10 = w := by
  rw [field_append w 3 3 10, field_append w 6 10 0]
  exact field_whole w

theorem singleFields_append (w : Word) :
    field w 10 6 ++ field w 7 3 ++ field w 6 1 ++ field w 4 2 ++ field w 0 4 = w := by
  rw [field_append w 6 3 7, field_append w 9 1 6, field_append w 10 2 4, field_append w 12 4 0]
  exact field_whole w

theorem doubleFields_append (w : Word) :
    field w 12 4 ++ field w 8 4 ++ field w 7 1 ++ field w 6 1 ++ field w 4 2 ++ field w 0 4 = w := by
  rw [field_append w 4 4 8, field_append w 8 1 7, field_append w 9 1 6, field_append w 10 2 4, field_append w 12 4 0]
  exact field_whole w

/-! ## Flavors (R81) -/

theorem toNat_field (w : Word) (lo len : Nat) : (field w lo len).toNat = w.toNat / 2 ^ lo % 2 ^ len := by
  simp [field, Nat.shiftRight_eq_div_pow]

theorem singleTag_iff (w : Word) : field w 10 6 = 0b000100 ↔ 0x1000 ≤ w.toNat ∧ w.toNat ≤ 0x13FF := by
  have hw := w.isLt
  rw [← BitVec.toNat_inj, toNat_field]
  change w.toNat / 2 ^ 10 % 2 ^ 6 = 4 ↔ _
  omega

theorem jumpTag_iff (w : Word) : field w 13 3 = 0b001 ↔ 0x2000 ≤ w.toNat ∧ w.toNat ≤ 0x3FFF := by
  have hw := w.isLt
  rw [← BitVec.toNat_inj, toNat_field]
  change w.toNat / 2 ^ 13 % 2 ^ 3 = 1 ↔ _
  omega

theorem flavor_eq_single_iff (w : Word) : flavor w = .single ↔ field w 10 6 = 0b000100 := by
  unfold flavor
  split_ifs with hs <;> simpa using hs

/-- The tag of the single-operand flavor, which R81 tests first, hides no jump word. -/
theorem flavor_eq_jump_iff (w : Word) : flavor w = .jump ↔ field w 13 3 = 0b001 := by
  have disjoint : field w 10 6 = 0b000100 → field w 13 3 ≠ 0b001 := by
    rw [Ne, singleTag_iff, jumpTag_iff]
    omega
  unfold flavor
  split_ifs with hs hj
  · simpa using disjoint hs
  · simpa using hj
  · simpa using hj

theorem flavor_eq_double_iff (w : Word) : flavor w = .double ↔ flavor w ≠ .single ∧ flavor w ≠ .jump := by
  cases flavor w <;> simp

/-- Settles O37: each tag of R81 is a range of words, and the double-operand flavor takes what the other two leave. -/
theorem flavorsAreWordRanges : Obligations.FlavorsAreWordRanges := by
  unfold Obligations.FlavorsAreWordRanges
  intro w
  rw [flavor_eq_double_iff, Ne, Ne, flavor_eq_single_iff, flavor_eq_jump_iff, singleTag_iff, jumpTag_iff]
  omega

/-! ## The operands a first word and its extension words give (R90, R91, R101) -/

/-- The operand of a single-operand word, with this extension word. -/
def singleOperand (w0 : Word) (ext : Option Word) : Operand :=
  ⟨field w0 0 4, modeTable (field w0 0 4) (field w0 4 2), ext, none⟩

/-- The source of a double-operand word, with this extension word. -/
def sourceOperand (w0 : Word) (ext : Option Word) : Operand :=
  ⟨field w0 8 4, modeTable (field w0 8 4) (field w0 4 2), ext, none⟩

/-- The destination of a double-operand word, with this extension word. -/
def destOperand (w0 : Word) (ext : Option Word) : Operand :=
  ⟨field w0 0 4, destMode (field w0 0 4) (field w0 7 1), ext, none⟩

/-- R94: the operand of this single-operand word takes an extension word. -/
def singleTakesExt (w0 : Word) : Bool := needsExtS (field w0 0 4) (modeTable (field w0 0 4) (field w0 4 2))

/-- R93: the source of this double-operand word takes an extension word. -/
def sourceTakesExt (w0 : Word) : Bool := needsExtD (field w0 8 4) (modeTable (field w0 8 4) (field w0 4 2))

/-- R93: the destination of this double-operand word takes an extension word. -/
def destTakesExt (w0 : Word) : Bool := needsExtD (field w0 0 4) (destMode (field w0 0 4) (field w0 7 1))

theorem singleOperandOk_singleOperand {w0 : Word} {ext : Option Word} (h : ext.isSome = singleTakesExt w0) :
    singleOperandOk (singleOperand w0 ext) = true := by
  simpa [singleOperandOk, modeOk, singleOperand, singleTakesExt] using h

theorem sourceOk_sourceOperand {w0 : Word} {ext : Option Word} (h : ext.isSome = sourceTakesExt w0) :
    sourceOk (sourceOperand w0 ext) = true := by
  simpa [sourceOk, modeOk, sourceOperand, sourceTakesExt] using h

theorem destOk_destOperand {w0 : Word} {ext : Option Word} (h : ext.isSome = destTakesExt w0) :
    destOk (destOperand w0 ext) = true := by
  have hmode : modeOk (destOperand w0 ext) = true := by
    simp only [modeOk, destOperand, destMode, modeBits_modeTable, decide_true]
  rw [destOk, decide_eq_true_eq]
  exact ⟨hmode, modeBits_destMode_lt .., h, rfl⟩

/-- A single-operand word gives back the operand it was written from. -/
theorem singleOperand_singleWord {op : SOp} {bw : Bit} {o : Operand} (h : singleOperandOk o = true) :
    singleOperand (singleWord op bw o) o.ext = o ∧ o.ext.isSome = singleTakesExt (singleWord op bw o) := by
  obtain ⟨-, -, -, hbits, hreg⟩ := singleWord_fields op bw o
  obtain ⟨reg, mode, ext, cg⟩ := o
  simp only [singleOperandOk, modeOk, decide_eq_true_eq] at h
  obtain ⟨hmode, hext, rfl⟩ := h
  simp [singleOperand, singleTakesExt, hbits, hreg, hmode, hext]

/-- A double-operand word gives back the source it was written from. -/
theorem sourceOperand_doubleWord {op : DOp} {bw : Bit} {src dst : Operand} (h : sourceOk src = true) :
    sourceOperand (doubleWord op bw src dst) src.ext = src ∧
      src.ext.isSome = sourceTakesExt (doubleWord op bw src dst) := by
  obtain ⟨-, hreg, -, -, hbits, -⟩ := doubleWord_fields op bw src dst
  obtain ⟨reg, mode, ext, cg⟩ := src
  simp only [sourceOk, modeOk, decide_eq_true_eq] at h
  obtain ⟨hmode, hext, rfl⟩ := h
  simp [sourceOperand, sourceTakesExt, hbits, hreg, sourceReg, sourceBits, hmode, hext]

/-- A double-operand word gives back the destination it was written from. -/
theorem destOperand_doubleWord {op : DOp} {bw : Bit} {src dst : Operand} (h : destOk dst = true) :
    destOperand (doubleWord op bw src dst) dst.ext = dst ∧
      dst.ext.isSome = destTakesExt (doubleWord op bw src dst) := by
  obtain ⟨-, -, hbit, -, -, hreg⟩ := doubleWord_fields op bw src dst
  obtain ⟨reg, mode, ext, cg⟩ := dst
  simp only [destOk, modeOk, decide_eq_true_eq] at h
  obtain ⟨hmode, hlt, hext, rfl⟩ := h
  simp [destOperand, destTakesExt, hbit, hreg, destMode_setWidth hmode hlt, hext]

/-! ## The encoder and the decoder's operand forms, format by format -/

@[simp] theorem encode_mkJump (c : Cond) (off disp : Int) : encode (mkJump c off disp) = [jumpWord c off] := by
  simp [encode]
@[simp] theorem encode_mkSingle (op : SOp) (bw : Bit) (o : Operand) :
    encode (mkSingle op bw o) = singleWord op bw o :: o.ext.toList := by simp [encode]
@[simp] theorem encode_mkDouble (op : DOp) (bw : Bit) (src dst : Operand) :
    encode (mkDouble op bw src dst) = doubleWord op bw src dst :: (src.ext.toList ++ dst.ext.toList) := by simp [encode]

@[simp] theorem decodedForm_mkJump (c : Cond) (off disp : Int) :
    (mkJump c off disp).decodedForm = jumpFieldsOk off disp := by simp [Instr.decodedForm]
@[simp] theorem decodedForm_mkSingle (op : SOp) (bw : Bit) (o : Operand) :
    (mkSingle op bw o).decodedForm = singleOperandOk o := by simp [Instr.decodedForm]
@[simp] theorem decodedForm_mkDouble (op : DOp) (bw : Bit) (src dst : Operand) :
    (mkDouble op bw src dst).decodedForm = (sourceOk src && destOk dst) := by simp [Instr.decodedForm]

/-- R102: what the decoder can emit is a jump, an instruction of one of the two operand formats, or `Invalid`. -/
theorem decodedForm_cases {i : Instr} (h : i.decodedForm = true) :
    (∃ c off, i = mkJump c off (2 * off + 2) ∧ -512 ≤ off ∧ off ≤ 511) ∨
    (∃ op bw o, i = mkSingle op bw o ∧ singleOperandOk o = true) ∨
    (∃ op bw src dst, i = mkDouble op bw src dst ∧ sourceOk src = true ∧ destOk dst = true) ∨ i = .invalid := by
  cases hj : asJump i with
  | some parts =>
    obtain ⟨c, off, disp⟩ := parts
    obtain rfl := eq_mkJump_of_asJump hj
    obtain ⟨hlo, hhi, rfl⟩ : -512 ≤ off ∧ off ≤ 511 ∧ disp = 2 * off + 2 := by simpa [jumpFieldsOk] using h
    exact .inl ⟨c, off, rfl, hlo, hhi⟩
  | none =>
  cases hs : asSingle i with
  | some parts =>
    obtain ⟨op, bw, o⟩ := parts
    obtain rfl := eq_mkSingle_of_asSingle hs
    exact .inr (.inl ⟨op, bw, o, rfl, by simpa using h⟩)
  | none =>
  cases hd : asDouble i with
  | some parts =>
    obtain ⟨op, bw, src, dst⟩ := parts
    obtain rfl := eq_mkDouble_of_asDouble hd
    exact .inr (.inr (.inl ⟨op, bw, src, dst, rfl, by simpa using h⟩))
  | none => exact .inr (.inr (.inr (by simpa [Instr.decodedForm, hj, hs, hd] using h)))

/-! ## Reading an instruction whose words are at hand (R96, R103) -/

theorem decodeSingle_of_ext {w0 : Word} {op : SOp} {ext : Option Word} (hop : sopOf (field w0 7 3) = some op)
    (hext : ext.isSome = singleTakesExt w0) (more : List Word) :
    decodeSingle w0 (ext.toList ++ more) =
      .ok (mkSingle op (field w0 6 1) (singleOperand w0 ext)) (ext.toList.length + 1) := by
  unfold singleTakesExt at hext
  simp only [decodeSingle, hop, ← hext]
  cases ext <;> rfl

theorem decodeDouble_of_exts {w0 : Word} {op : DOp} {srcExt dstExt : Option Word}
    (hop : dopOf (field w0 12 4) = some op) (hsrc : srcExt.isSome = sourceTakesExt w0)
    (hdst : dstExt.isSome = destTakesExt w0) (more : List Word) :
    decodeDouble w0 (srcExt.toList ++ dstExt.toList ++ more) =
      .ok (mkDouble op (field w0 6 1) (sourceOperand w0 srcExt) (destOperand w0 dstExt))
        ((srcExt.toList ++ dstExt.toList).length + 1) := by
  unfold sourceTakesExt at hsrc
  unfold destTakesExt at hdst
  simp only [decodeDouble, hop, ← hsrc, ← hdst]
  cases srcExt <;> cases dstExt <;> rfl

theorem decode_jumpWord {c : Cond} {off : Int} (hlo : -512 ≤ off) (hhi : off ≤ 511) (exts : List Word) :
    decode (jumpWord c off) exts = .ok (mkJump c off (2 * off + 2)) 1 := by
  obtain ⟨-, hcond, hoff⟩ := jumpWord_fields c off
  simp [decode_of_jump _ (flavor_jumpWord c off), decodeJump, hcond, hoff, sext10_ofInt hlo hhi]

theorem decode_singleWord {op : SOp} {bw : Bit} {o : Operand} (ho : singleOperandOk o = true) (more : List Word) :
    decode (singleWord op bw o) (o.ext.toList ++ more) = .ok (mkSingle op bw o) (o.ext.toList.length + 1) := by
  obtain ⟨-, hop, hbw, -, -⟩ := singleWord_fields op bw o
  obtain ⟨hopd, hext⟩ := singleOperand_singleWord (op := op) (bw := bw) ho
  rw [decode_of_single _ (flavor_singleWord op bw o), decodeSingle_of_ext (by rw [hop, sopOf_sopCode]) hext, hopd, hbw]

theorem decode_doubleWord {op : DOp} {bw : Bit} {src dst : Operand} (hs : sourceOk src = true) (hd : destOk dst = true)
    (more : List Word) :
    decode (doubleWord op bw src dst) (src.ext.toList ++ dst.ext.toList ++ more) =
      .ok (mkDouble op bw src dst) ((src.ext.toList ++ dst.ext.toList).length + 1) := by
  obtain ⟨hop, -, -, hbw, -, -⟩ := doubleWord_fields op bw src dst
  obtain ⟨hsrc, hsrcExt⟩ := sourceOperand_doubleWord (op := op) (bw := bw) (dst := dst) hs
  obtain ⟨hdst, hdstExt⟩ := destOperand_doubleWord (op := op) (bw := bw) (src := src) hd
  rw [decode_of_double _ (flavor_doubleWord op bw src dst),
    decodeDouble_of_exts (by rw [hop, dopOf_dopCode]) hsrcExt hdstExt, hsrc, hdst, hbw]

/-- Settles O30: each format's word is read back as the instruction it was written from. -/
theorem decoderReadsBackTheEncoding : Obligations.DecoderReadsBackTheEncoding := by
  unfold Obligations.DecoderReadsBackTheEncoding
  intro i more h
  rcases decodedForm_cases h with ⟨c, off, rfl, hlo, hhi⟩ | ⟨op, bw, o, rfl, ho⟩ | ⟨op, bw, src, dst, rfl, hs, hd⟩ | rfl
  · exact ⟨_, _, encode_mkJump .., by rw [decode_jumpWord hlo hhi, encode_mkJump]; rfl⟩
  · exact ⟨_, _, encode_mkSingle .., by rw [decode_singleWord ho, encode_mkSingle, List.length_cons]⟩
  · exact ⟨_, _, encode_mkDouble .., by rw [decode_doubleWord hs hd, encode_mkDouble, List.length_cons]⟩
  · exact ⟨0, [], rfl, rfl⟩

/-! ## What every first word and every list of following words are read as (R97, R103, R104) -/

/-- The first word `w0` with exactly the extension words `own` is the instruction `d`. -/
structure Reads (w0 : Word) (own : List Word) (d : Instr) : Prop where
  form : d.decodedForm = true
  length : own.length + 1 = instrLength w0
  words : d ≠ .invalid → encode d = w0 :: own

/-- The two answers of the decoder: the words at hand begin with an instruction, or they are too few for its length. -/
def ReadsOrTruncates (w0 : Word) (exts : List Word) (answer : Decoded) : Prop :=
  (∃ d own more, exts = own ++ more ∧ answer = .ok d (own.length + 1) ∧ Reads w0 own d) ∨
  (answer = .trunc (instrLength w0) ∧ exts.length + 1 < instrLength w0)

theorem instrLength_of_jump {w0 : Word} (hf : flavor w0 = .jump) : instrLength w0 = 1 := by
  simp [instrLength, hf]

theorem instrLength_of_single {w0 : Word} {op : SOp} (hf : flavor w0 = .single) (hop : sopOf (field w0 7 3) = some op) :
    instrLength w0 = 1 + (singleTakesExt w0).toNat := by
  simp [instrLength, hf, hop, singleTakesExt]

theorem instrLength_of_double {w0 : Word} {op : DOp} (hf : flavor w0 = .double)
    (hop : dopOf (field w0 12 4) = some op) :
    instrLength w0 = 1 + (sourceTakesExt w0).toNat + (destTakesExt w0).toNat := by
  simp [instrLength, hf, hop, sourceTakesExt, destTakesExt]

/-- R97: an instruction has one, two or three words. -/
theorem instrLength_bounds (w0 : Word) : 1 ≤ instrLength w0 ∧ instrLength w0 ≤ 3 := by
  cases hf : flavor w0 with
  | jump => simp [instrLength_of_jump hf]
  | single =>
    cases hop : sopOf (field w0 7 3) with
    | none => simp [instrLength, hf, hop]
    | some op =>
      have := Bool.toNat_le (singleTakesExt w0)
      rw [instrLength_of_single hf hop]
      omega
  | double =>
    cases hop : dopOf (field w0 12 4) with
    | none => simp [instrLength, hf, hop]
    | some op =>
      have hs := Bool.toNat_le (sourceTakesExt w0)
      have hd := Bool.toNat_le (destTakesExt w0)
      rw [instrLength_of_double hf hop]
      omega

theorem jumpWord_of_fields {w0 : Word} (hf : flavor w0 = .jump) :
    jumpWord (condOf (field w0 10 3)) (sext10 (field w0 0 10)) = w0 := by
  rw [jumpWord, condCode_condOf, ofInt_sext10, ← (flavor_eq_jump_iff w0).mp hf, jumpFields_append]

theorem singleWord_of_fields {w0 : Word} {op : SOp} (hf : flavor w0 = .single) (hop : sopOf (field w0 7 3) = some op)
    (ext : Option Word) : singleWord op (field w0 6 1) (singleOperand w0 ext) = w0 := by
  rw [singleWord, sopCode_of_sopOf hop, ← (flavor_eq_single_iff w0).mp hf]
  simp only [singleOperand, modeBits_modeTable]
  exact singleFields_append w0

theorem doubleWord_of_fields {w0 : Word} {op : DOp} (hop : dopOf (field w0 12 4) = some op)
    (srcExt dstExt : Option Word) :
    doubleWord op (field w0 6 1) (sourceOperand w0 srcExt) (destOperand w0 dstExt) = w0 := by
  rw [doubleWord, dopCode_of_dopOf hop]
  simp only [sourceOperand, destOperand, sourceReg, sourceBits, modeBits_modeTable, setWidth_destMode]
  exact doubleFields_append w0

/-- An operand's extension word is the next word at hand, if it takes one. -/
theorem exists_ext_or_nil (takes : Bool) (words : List Word) :
    (∃ (ext : Option Word) (more : List Word), ext.isSome = takes ∧ words = ext.toList ++ more) ∨
    (takes = true ∧ words = []) := by
  match takes, words with
  | false, words => exact .inl ⟨none, words, rfl, rfl⟩
  | true, w1 :: more => exact .inl ⟨some w1, more, rfl, rfl⟩
  | true, [] => exact .inr ⟨rfl, rfl⟩

theorem readsOrTruncates_invalid {w0 : Word} {exts : List Word} (hlen : instrLength w0 = 1) :
    ReadsOrTruncates w0 exts (.ok .invalid 1) :=
  .inl ⟨.invalid, [], exts, rfl, rfl, rfl, hlen.symm, fun h => absurd rfl h⟩

theorem decodeJump_readsOrTruncates {w0 : Word} (exts : List Word) (hf : flavor w0 = .jump) :
    ReadsOrTruncates w0 exts (decodeJump w0) := by
  refine .inl ⟨_, [], exts, rfl, rfl, ?_, (instrLength_of_jump hf).symm, fun _ => ?_⟩
  · simpa [jumpFieldsOk] using sext10_bounds (field w0 0 10)
  · rw [encode_mkJump, jumpWord_of_fields hf]

theorem decodeSingle_readsOrTruncates {w0 : Word} (exts : List Word) (hf : flavor w0 = .single) :
    ReadsOrTruncates w0 exts (decodeSingle w0 exts) := by
  cases hop : sopOf (field w0 7 3) with
  | none =>
    rw [show decodeSingle w0 exts = .ok .invalid 1 by simp [decodeSingle, hop]]
    exact readsOrTruncates_invalid (by simp [instrLength, hf, hop])
  | some op =>
    have hlen := instrLength_of_single hf hop
    rcases exists_ext_or_nil (singleTakesExt w0) exts with ⟨ext, more, hext, rfl⟩ | ⟨htakes, rfl⟩
    · refine .inl ⟨_, ext.toList, more, rfl, decodeSingle_of_ext hop hext more, ?_, ?_, fun _ => ?_⟩
      · rw [decodedForm_mkSingle, singleOperandOk_singleOperand hext]
      · rw [hlen, ← hext]; cases ext <;> rfl
      · rw [encode_mkSingle, singleWord_of_fields hf hop]; rfl
    · rw [htakes] at hlen
      refine .inr ⟨?_, by simp [hlen]⟩
      unfold singleTakesExt at htakes
      simp [decodeSingle, hop, htakes, hlen]

/-- R104: with fewer words than the operands take, the answer is the truncation. -/
theorem decodeDouble_of_short {w0 : Word} {op : DOp} {exts : List Word} (hop : dopOf (field w0 12 4) = some op)
    (hshort : exts.length < (sourceTakesExt w0).toNat + (destTakesExt w0).toNat) :
    decodeDouble w0 exts = .trunc (1 + (sourceTakesExt w0).toNat + (destTakesExt w0).toNat) := by
  unfold sourceTakesExt destTakesExt at *
  simp only [decodeDouble, hop]
  generalize needsExtD (field w0 8 4) _ = srcTakes at hshort ⊢
  generalize needsExtD (field w0 0 4) _ = dstTakes at hshort ⊢
  match srcTakes, dstTakes, exts with
  | true, false, [] | false, true, [] | true, true, [] | true, true, [_] => rfl
  | false, false, _ | true, false, _ :: _ | false, true, _ :: _ | true, true, _ :: _ :: _ =>
    simp at hshort

theorem decodeDouble_readsOrTruncates {w0 : Word} (exts : List Word) (hf : flavor w0 = .double) :
    ReadsOrTruncates w0 exts (decodeDouble w0 exts) := by
  cases hop : dopOf (field w0 12 4) with
  | none =>
    rw [show decodeDouble w0 exts = .ok .invalid 1 by simp [decodeDouble, hop]]
    exact readsOrTruncates_invalid (by simp [instrLength, hf, hop])
  | some op =>
    have hlen := instrLength_of_double hf hop
    have short (h : exts.length < (sourceTakesExt w0).toNat + (destTakesExt w0).toNat) :
        ReadsOrTruncates w0 exts (decodeDouble w0 exts) :=
      .inr ⟨by rw [decodeDouble_of_short hop h, hlen], by omega⟩
    rcases exists_ext_or_nil (sourceTakesExt w0) exts with ⟨srcExt, rest, hsrc, rfl⟩ | ⟨htakes, rfl⟩
    · rcases exists_ext_or_nil (destTakesExt w0) rest with ⟨dstExt, more, hdst, rfl⟩ | ⟨htakes, rfl⟩
      · rw [← List.append_assoc]
        refine .inl ⟨_, srcExt.toList ++ dstExt.toList, more, rfl, decodeDouble_of_exts hop hsrc hdst more, ?_, ?_,
          fun _ => ?_⟩
        · rw [decodedForm_mkDouble, sourceOk_sourceOperand hsrc, destOk_destOperand hdst]; rfl
        · rw [hlen, ← hsrc, ← hdst]; cases srcExt <;> cases dstExt <;> rfl
        · rw [encode_mkDouble, doubleWord_of_fields hop]; rfl
      · exact short (by rw [← hsrc, htakes]; cases srcExt <;> simp)
    · exact short (by simp [htakes])

theorem decode_readsOrTruncates (w0 : Word) (exts : List Word) : ReadsOrTruncates w0 exts (decode w0 exts) := by
  cases hf : flavor w0 with
  | jump => rw [decode_of_jump _ hf]; exact decodeJump_readsOrTruncates exts hf
  | single => rw [decode_of_single _ hf]; exact decodeSingle_readsOrTruncates exts hf
  | double => rw [decode_of_double _ hf]; exact decodeDouble_readsOrTruncates exts hf

/-- An answered instruction is read from the first of the words at hand, and its length counts them. -/
theorem reads_of_decode {w0 : Word} {exts : List Word} {d : Instr} {len : Nat} (h : decode w0 exts = .ok d len) :
    ∃ own more, exts = own ++ more ∧ len = own.length + 1 ∧ Reads w0 own d := by
  rcases decode_readsOrTruncates w0 exts with ⟨d', own, more, hexts, hans, hreads⟩ | ⟨hans, -⟩
  · obtain ⟨rfl, rfl⟩ := Decoded.ok.inj (hans.symm.trans h)
    exact ⟨own, more, hexts, rfl, hreads⟩
  · simp [hans] at h

/-- Settles O32: the instruction was read from as many words as its first word asks for, all of them at hand. -/
theorem decodedInstructionIsWellFormed : Obligations.DecodedInstructionIsWellFormed := by
  unfold Obligations.DecodedInstructionIsWellFormed
  intro w0 exts d len h
  obtain ⟨own, more, rfl, rfl, hreads⟩ := reads_of_decode h
  have hlen := hreads.length
  obtain ⟨hpos, hthree⟩ := instrLength_bounds w0
  exact ⟨hreads.form, hlen, by omega, by omega, by rw [List.length_append]; omega⟩

/-- Settles O33: the encoding is the first word and the extension words the instruction was read from. -/
theorem encoderRestoresTheWords : Obligations.EncoderRestoresTheWords := by
  unfold Obligations.EncoderRestoresTheWords
  intro w0 exts d len h hd
  obtain ⟨own, more, rfl, rfl, hreads⟩ := reads_of_decode h
  rw [hreads.words hd, List.take_succ_cons, List.take_left]

/-- Settles O34: a truncation is answered exactly when the words at hand are fewer than the length asks for. -/
theorem truncationExactlyWhenWordsAreMissing : Obligations.TruncationExactlyWhenWordsAreMissing := by
  unfold Obligations.TruncationExactlyWhenWordsAreMissing
  intro w0 exts need
  obtain ⟨-, hthree⟩ := instrLength_bounds w0
  rcases decode_readsOrTruncates w0 exts with ⟨d, own, more, rfl, hans, hreads⟩ | ⟨hans, hshort⟩
  · have hlen := hreads.length
    simp only [hans, reduceCtorEq, false_iff, false_imp_iff, and_true, List.length_append]
    omega
  · simp only [hans, Decoded.trunc.injEq]
    omega

/-- Settles O35: what stands behind the consumed words does not matter to the answer. -/
theorem decodeReadsOnlyConsumedWords : Obligations.DecodeReadsOnlyConsumedWords := by
  unfold Obligations.DecodeReadsOnlyConsumedWords
  intro w0 exts more d len h
  obtain ⟨-, -, hmore⟩ := decode_restsOnItsWords h
  exact hmore more

end Sys2Proof.Machine
end

section
/-! PROOFS. The jump family (40_jumps.md): what a jump word is read as, the step that takes it, and the statements O38, O39
and O56. -/

namespace Sys2Proof.Machine

/-! ## The offset law (R98, R130) -/

/-- The ten offset bits, sign-extended, are the signed offset of the word. -/
theorem sext10_field_eq_signedOffset (w0 : Word) : sext10 (field w0 0 10) = signedOffset w0 := by
  unfold sext10 signedOffset
  rw [BitVec.toInt_eq_toNat_cond, toNat_field]
  split_ifs <;> omega

theorem signedOffset_bounds (w0 : Word) : -512 ≤ signedOffset w0 ∧ signedOffset w0 ≤ 511 := by
  rw [← sext10_field_eq_signedOffset]
  exact sext10_bounds _

theorem decode_jump_by_offset {w0 : Word} (exts : List Word) (hf : flavor w0 = .jump) :
    decode w0 exts = .ok (mkJump (condOf (field w0 10 3)) (signedOffset w0) (2 * signedOffset w0 + 2)) 1 := by
  rw [decode_of_jump exts hf, decodeJump, sext10_field_eq_signedOffset]

/-- R210, R231: the normalizer and the recognizer leave the decoded jump unchanged. -/
theorem resolve_jump_by_offset {w0 : Word} (exts : List Word) (hf : flavor w0 = .jump) :
    resolve w0 exts = .ok (mkJump (condOf (field w0 10 3)) (signedOffset w0) (2 * signedOffset w0 + 2)) 1 :=
  resolve_eq_ok.mpr ⟨_, decode_jump_by_offset exts hf, by rw [normalize_mkJump, final_mkJump]⟩

/-- Settles O38: the condition is the one whose code is bits 12 to 10 of the word. -/
theorem jumpWordsDecodeByTheOffsetLaw : Obligations.JumpWordsDecodeByTheOffsetLaw := by
  unfold Obligations.JumpWordsDecodeByTheOffsetLaw
  intro w0 exts hf
  refine ⟨condOf (field w0 10 3), ?_, decode_jump_by_offset exts hf, resolve_jump_by_offset exts hf⟩
  rw [condCode_condOf]
  exact toNat_field w0 10 3

/-! ## The step at a jump word (R131, R275) -/

theorem fetch_of_resolve {s : State} {w0 : Word} {exts : List Word} {fin : Instr} {len : Nat}
    (hw : fetchWindow s = some (w0, exts)) (hr : resolve w0 exts = .ok fin len) :
    fetch s = .instr fin ((w0 :: exts).take len) := by
  simp [fetch, hw, hr]

theorem flowAct_mkJump (c : Cond) (off disp : Int) : flowAct (mkJump c off disp) = jumpFlow disp := by
  cases c <;> rfl

/-- R275: with room in the queue, a retired jump enqueues `start + disp`, whatever integer it is, and moves one word on. -/
theorem retire_mkJump_of_room {s : State} (c : Cond) (off disp : Int) (hm : s.cfg.mode = .flow)
    (hroom : s.bq.length ≠ s.cfg.qd) :
    retire (mkJump c off disp) (flowAct (mkJump c off disp)) s =
      moveTo (s.idx + 1) (setQueue (s.bq ++ [addr s.idx + disp]) (markVisited (emit (mkJump c off disp) s))) := by
  rw [retire_flow hm, flowAct_mkJump]
  exact if_neg hroom

/-- Settles O39: the step retires the jump of the offset law, whose offset has ten signed bits. -/
theorem jumpTargetIsAnUnwrappedInteger : Obligations.JumpTargetIsAnUnwrappedInteger := by
  unfold Obligations.JumpTargetIsAnUnwrappedInteger
  intro s w0 exts hrun hm hroom hw hf
  have hstep := step_of_instr hrun (fetch_of_resolve hw (resolve_jump_by_offset exts hf))
  rw [retire_mkJump_of_room (s := consume ((w0 :: exts).take 1) s) _ _ _ hm hroom] at hstep
  obtain ⟨hlo, hhi⟩ := signedOffset_bounds w0
  exact ⟨_, addr s.idx + (2 * signedOffset w0 + 2), hstep, by omega, rfl, by omega, by omega, by omega, rfl⟩

/-! ## Words written out -/

/-- Settles O56: the pipeline runs on each of the twelve windows. -/
theorem writtenOutWordsDecode : Obligations.WrittenOutWordsDecode := by
  unfold Obligations.WrittenOutWordsDecode
  decide

end Sys2Proof.Machine
end

section
/-! PROOFS. The single-operand family (41_single_operand.md): a single-operand instruction passes the normalizer and the
recognizer, what its operand and its length are, and the statement O40. -/

namespace Sys2Proof.Machine

/-! ## The pipeline gives a single-operand instruction exactly when the decoder does (R158) -/

@[simp] theorem asPseudo_mkSingle (op : SOp) (bw : Bit) (o : Operand) : asPseudo (mkSingle op bw o) = none := by
  cases op <;> rfl

/-- R253: every row of the recognizer answers a pseudo value. -/
theorem asPseudo_isSome_of_recognize {i p : Instr} (h : recognize i = some p) : (asPseudo p).isSome := by
  unfold recognize at h
  cases hd : asDouble i with
  | none => simp [hd] at h
  | some parts =>
    obtain ⟨op, bw, src, dst⟩ := parts
    rw [hd] at h
    cases op
    case subc | dadd | bit | xor | and => cases h
    all_goals
      simp only [recognizeMov, recognizeBic, recognizeBis, recognizeAdd, recognizeAddc, recognizeCmp, recognizeSub] at h
      split_ifs at h <;> cases h <;> rfl

/-- R231: no row answers a single-operand instruction. -/
theorem final_eq_mkSingle_iff {i : Instr} {op : SOp} {bw : Bit} {o : Operand} :
    final i = mkSingle op bw o ↔ i = mkSingle op bw o := by
  refine ⟨fun h => ?_, fun h => by rw [h, final_mkSingle]⟩
  unfold final at h
  cases hrec : recognize i with
  | none => simpa [hrec] using h
  | some p =>
    have hpseudo := asPseudo_isSome_of_recognize hrec
    obtain rfl : p = mkSingle op bw o := by simpa [hrec] using h
    simp at hpseudo

/-- R210: the normalizer rewrites nothing to a single-operand instruction. -/
theorem normalizeInstr_eq_mkSingle_iff {i : Instr} {op : SOp} {bw : Bit} {o : Operand} :
    normalizeInstr i = mkSingle op bw o ↔ i = mkSingle op bw o := by
  refine ⟨fun h => ?_, fun h => by rw [h, normalize_mkSingle]⟩
  cases hd : asDouble i with
  | none => simpa [normalizeInstr, hd] using h
  | some parts =>
    obtain ⟨op', bw', src, dst⟩ := parts
    have hdouble : asDouble (normalizeInstr i) = some (op', bw', normSrc src, dst) := by
      rw [eq_mkDouble_of_asDouble hd, normalize_mkDouble, asDouble_mkDouble]
    simp [h] at hdouble

theorem resolve_eq_mkSingle_iff {w0 : Word} {exts : List Word} {op : SOp} {bw : Bit} {o : Operand} {len : Nat} :
    resolve w0 exts = .ok (mkSingle op bw o) len ↔ decode w0 exts = .ok (mkSingle op bw o) len := by
  simp [resolve_eq_ok, final_eq_mkSingle_iff, normalizeInstr_eq_mkSingle_iff]

/-! ## The operand and the length of a decoded single-operand instruction (R94, R97) -/

/-- The consumed words are those of the encoding: the first word, and the operand's extension word if it has one. -/
theorem decode_mkSingle_operand {w0 : Word} {exts : List Word} {op : SOp} {bw : Bit} {o : Operand} {len : Nat}
    (h : decode w0 exts = .ok (mkSingle op bw o) len) :
    singleOperandOk o = true ∧ len = o.ext.toList.length + 1 := by
  obtain ⟨own, more, -, rfl, hreads⟩ := reads_of_decode h
  have hvalid : mkSingle op bw o ≠ .invalid := by cases op <;> simp [mkSingle]
  have hwords := hreads.words hvalid
  rw [encode_mkSingle] at hwords
  obtain ⟨-, rfl⟩ := List.cons.inj hwords
  exact ⟨by simpa using hreads.form, rfl⟩

/-! ## The aliases (R95, R158, R159) -/

/-- ABSOLUTE and the constant aliases, the modes of the tables of registers 2 and 3 alone. -/
def IsAlias (m : Mode) : Prop := m = .absolute ∨ constValue m ≠ none

/-- R89: the ordinary table holds none of the aliases, so such a mode is of the table of register 2 or of register 3. -/
theorem reg_of_isAlias_modeTable {r : Reg} {m : BitVec 2} (h : IsAlias (modeTable r m)) : r = 2 ∨ r = 3 := by
  by_contra hne
  obtain ⟨h2, h3⟩ := not_or.mp hne
  rw [modeTable, if_neg h2, if_neg h3] at h
  split_ifs at h <;> simp [IsAlias, constValue] at h

/-- R94, R159: a single-operand operand takes an extension word in INDEXED and AUTOINC mode alone. -/
theorem needsExtS_of_isAlias {m : Mode} (r : Reg) (h : IsAlias m) : needsExtS r m = false := by
  have hindexed : m ≠ .indexed := by rintro rfl; simp [IsAlias, constValue] at h
  have hautoinc : m ≠ .autoinc := by rintro rfl; simp [IsAlias, constValue] at h
  simp [needsExtS, hindexed, hautoinc]

theorem singleOperandOk_of_isAlias {o : Operand} (ho : singleOperandOk o = true) (h : IsAlias o.mode) :
    (o.reg = 2 ∨ o.reg = 3) ∧ o.ext = none ∧ o.cg = none := by
  simp only [singleOperandOk, modeOk, decide_eq_true_eq] at ho
  obtain ⟨hmode, hext, hcg⟩ := ho
  rw [needsExtS_of_isAlias o.reg h] at hext
  exact ⟨reg_of_isAlias_modeTable (hmode.symm ▸ h), by simpa using hext, hcg⟩

/-- Settles O40: whichever stage gives the instruction, the decoder does, and the aliases take no extension word. -/
theorem singleOperandAliasesStay : Obligations.SingleOperandAliasesStay := by
  unfold Obligations.SingleOperandAliasesStay
  intro w0 exts i len op bw o hi halias h
  obtain rfl := eq_mkSingle_of_asSingle hi
  have hdec : decode w0 exts = .ok (mkSingle op bw o) len := h.elim id resolve_eq_mkSingle_iff.mp
  obtain ⟨ho, rfl⟩ := decode_mkSingle_operand hdec
  obtain ⟨hreg, hext, hcg⟩ := singleOperandOk_of_isAlias ho halias
  have hlen : o.ext.toList.length + 1 = 1 := by rw [hext]; rfl
  rw [hlen] at hdec
  exact ⟨hreg, hext, hcg, hlen, hdec, resolve_eq_mkSingle_iff.mpr hdec⟩

end Sys2Proof.Machine
end

section
/-! PROOFS. The normalizer family (43_normalizer.md): what the normalizer and the recognizer keep, the decoded instruction
behind a well-formed one, and the statements O31, O41 and O42. -/

namespace Sys2Proof.Machine

/-! ## What the normalizer does to each instruction (R210 to R213) -/

theorem normalizeInstr_of_asDouble_none {i : Instr} (h : asDouble i = none) : normalizeInstr i = i := by
  simp [normalizeInstr, h]

/-- R210: an instruction of another format is unchanged; of a double-operand one only the source is rewritten. -/
theorem normalizeInstr_cases (i : Instr) :
    (asDouble i = none ∧ normalizeInstr i = i) ∨
    ∃ op bw src dst, i = mkDouble op bw src dst ∧ normalizeInstr i = mkDouble op bw (normSrc src) dst := by
  cases hd : asDouble i with
  | none => exact .inl ⟨rfl, normalizeInstr_of_asDouble_none hd⟩
  | some parts =>
    obtain ⟨op, bw, src, dst⟩ := parts
    obtain rfl := eq_mkDouble_of_asDouble hd
    exact .inr ⟨op, bw, src, dst, rfl, normalize_mkDouble ..⟩

/-- R215: the mode of a constant becomes AUTOINC, and every other mode is kept. -/
@[simp] theorem constValue_normSrc_mode (o : Operand) : constValue (normSrc o).mode = none := by
  cases hc : constValue o.mode with
  | some v => rw [normSrc_of_const hc]; rfl
  | none => rw [normSrc_of_not_const hc, hc]

@[simp] theorem normSrc_normSrc (o : Operand) : normSrc (normSrc o) = normSrc o :=
  normSrc_of_not_const (constValue_normSrc_mode o)

theorem normalizeInstr_normalizeInstr (i : Instr) : normalizeInstr (normalizeInstr i) = normalizeInstr i := by
  rcases normalizeInstr_cases i with ⟨-, hsame⟩ | ⟨op, bw, src, dst, -, hnorm⟩
  · rw [hsame, hsame]
  · rw [hnorm, normalize_mkDouble, normSrc_normSrc]

/-- R215: no double-operand source has one of the constant modes after the normalizer. -/
theorem constValue_of_normalizeInstr_eq_mkDouble {i : Instr} {op : DOp} {bw : Bit} {src dst : Operand}
    (h : normalizeInstr i = mkDouble op bw src dst) : constValue src.mode = none := by
  have hparts : asDouble (normalizeInstr i) = some (op, bw, src, dst) := by rw [h, asDouble_mkDouble]
  rcases normalizeInstr_cases i with ⟨hd, hsame⟩ | ⟨op', bw', src', dst', -, hnorm⟩
  · simp [hsame, hd] at hparts
  · obtain ⟨-, -, rfl, -⟩ : op' = op ∧ bw' = bw ∧ normSrc src' = src ∧ dst' = dst := by simpa [hnorm] using hparts
    exact constValue_normSrc_mode src'

/-- Settles O41: the rewritten source is `normSrc` of it, by the value of its mode as a constant. -/
theorem normalizerRewritesConstantSources : Obligations.NormalizerRewritesConstantSources := by
  unfold Obligations.NormalizerRewritesConstantSources
  intro i
  refine ⟨normalizeInstr_of_asDouble_none, ?_⟩
  rintro op bw src dst rfl
  have hconst : ∀ {m : Mode} {v : Int}, constValue m = some v → src.mode = m → normSrc src = constSource v :=
    fun hv hm => normSrc_of_const (hm ▸ hv)
  refine ⟨normSrc src, normalize_mkDouble .., hconst rfl, hconst rfl, hconst rfl, hconst rfl, hconst rfl, hconst rfl, ?_⟩
  intro hreal
  refine normSrc_of_not_const ?_
  rcases hreal with hm | hm | hm | hm | hm <;> rw [hm] <;> rfl

/-! ## The recognizer runs once (44_pseudo.md R255) -/

@[simp] theorem asPseudo_mkDouble (op : DOp) (bw : Bit) (src dst : Operand) : asPseudo (mkDouble op bw src dst) = none := by
  cases op <;> rfl

/-- R231, R253: a row answers a pseudo value, which no row matches. -/
theorem recognize_of_recognize {i p : Instr} (h : recognize i = some p) : recognize p = none := by
  refine recognize_of_asDouble_none (Option.eq_none_iff_forall_ne_some.mpr ?_)
  rintro ⟨op, bw, src, dst⟩ hd
  have hpseudo := asPseudo_isSome_of_recognize h
  simp [eq_mkDouble_of_asDouble hd] at hpseudo

theorem final_of_recognize_none {i : Instr} (h : recognize i = none) : final i = i := by
  simp [final, h]

@[simp] theorem recognize_final (i : Instr) : recognize (final i) = none := by
  cases hrec : recognize i with
  | none => rw [final_of_recognize_none hrec, hrec]
  | some p =>
    have hfin : final i = p := by simp [final, hrec]
    rw [hfin, recognize_of_recognize hrec]

/-- Settles O42: each stage answers what it leaves unchanged. -/
theorem pipelineStagesAreIdempotent : Obligations.PipelineStagesAreIdempotent := by
  unfold Obligations.PipelineStagesAreIdempotent
  intro i
  exact ⟨normalizeInstr_normalizeInstr i, final_of_recognize_none (recognize_final i), fun _ => recognize_final i,
    fun _ _ _ _ => constValue_of_normalizeInstr_eq_mkDouble⟩

/-! ## The source the decoder reads where the encoder wrote a normalized one (R211, R215) -/

/-- The decoder's operand for the source fields that the encoder writes. -/
def rawSource (o : Operand) : Operand := ⟨sourceReg o, modeTable (sourceReg o) (sourceBits o), o.ext, none⟩

/-- The raw source is written as the same word. -/
@[simp] theorem doubleWord_rawSource (op : DOp) (bw : Bit) (src dst : Operand) :
    doubleWord op bw (rawSource src) dst = doubleWord op bw src dst := by
  have hreg : sourceReg (rawSource src) = sourceReg src := rfl
  have hbits : sourceBits (rawSource src) = sourceBits src := modeBits_modeTable ..
  rw [doubleWord, doubleWord, hreg, hbits]

/-- R215: a normalized source is an operand as decoded with no constant mode, or one of the six constants. -/
theorem normalSourceOk_cases {o : Operand} (h : normalSourceOk o = true) :
    (sourceOk o = true ∧ constValue o.mode = none) ∨ ∃ v ∈ [0, 1, 2, 4, 8, -1], o = constSource v := by
  obtain ⟨reg, mode, ext, cg⟩ := o
  rw [normalSourceOk, decide_eq_true_eq] at h
  obtain hdecoded | ⟨rfl, rfl, rfl, hcg⟩ := h
  · exact .inl hdecoded
  · obtain ⟨v, hv, rfl⟩ : ∃ v ∈ [0, 1, 2, 4, 8, -1], cg = some v := by simpa [eq_comm] using hcg
    exact .inr ⟨v, hv, rfl⟩

/-- What the decoder emits as a source is its own raw source. -/
theorem rawSource_of_sourceOk {o : Operand} (h : sourceOk o = true) : rawSource o = o := by
  obtain ⟨reg, mode, ext, cg⟩ := o
  simp only [sourceOk, modeOk, decide_eq_true_eq] at h
  obtain ⟨hmode, -, rfl⟩ := h
  simp [rawSource, sourceReg, sourceBits, hmode]

/-- R89, R211: each constant is written as the register and raw mode that select it. -/
theorem rawSource_constSource {v : Int} (hv : v ∈ [0, 1, 2, 4, 8, -1]) :
    sourceOk (rawSource (constSource v)) = true ∧ normSrc (rawSource (constSource v)) = constSource v := by
  revert v; decide

/-- The raw source is an operand as decoded, and normalizing it gives the source back. -/
theorem rawSource_of_normalSourceOk {o : Operand} (h : normalSourceOk o = true) :
    sourceOk (rawSource o) = true ∧ normSrc (rawSource o) = o := by
  rcases normalSourceOk_cases h with ⟨hdecoded, hno⟩ | ⟨v, hv, rfl⟩
  · rw [rawSource_of_sourceOk hdecoded]
    exact ⟨hdecoded, normSrc_of_not_const hno⟩
  · exact rawSource_constSource hv

/-! ## The decoded instruction behind a well-formed one (R230, R270) -/

@[simp] theorem wellFormed_mkJump (c : Cond) (off disp : Int) :
    (mkJump c off disp).wellFormed = jumpFieldsOk off disp := by simp [Instr.wellFormed]
@[simp] theorem wellFormed_mkSingle (op : SOp) (bw : Bit) (o : Operand) :
    (mkSingle op bw o).wellFormed = singleOperandOk o := by simp [Instr.wellFormed]

/-- What the walker acts on is the normalized and recognized form of an instruction as decoded, written as the same
words: itself, or its base with the raw source. -/
theorem exists_decodedForm_of_wellFormed {i : Instr} (h : i.wellFormed = true) :
    ∃ d : Instr, d.decodedForm = true ∧ encode d = encode i ∧ final (normalizeInstr d) = i := by
  cases hj : asJump i with
  | some parts =>
    obtain ⟨c, off, disp⟩ := parts
    obtain rfl := eq_mkJump_of_asJump hj
    exact ⟨_, by simpa using h, rfl, by simp⟩
  | none =>
  cases hs : asSingle i with
  | some parts =>
    obtain ⟨op, bw, o⟩ := parts
    obtain rfl := eq_mkSingle_of_asSingle hs
    exact ⟨_, by simpa using h, rfl, by simp⟩
  | none =>
  cases hd : asDouble (base i) with
  | some parts =>
    obtain ⟨op, bw, src, dst⟩ := parts
    obtain ⟨⟨hsrc, hdst⟩, hfin⟩ : (normalSourceOk src = true ∧ destOk dst = true) ∧ final (base i) = i := by
      simpa [Instr.wellFormed, hj, hs, hd] using h
    obtain ⟨hraw, hnorm⟩ := rawSource_of_normalSourceOk hsrc
    refine ⟨mkDouble op bw (rawSource src) dst, by simp [hraw, hdst], ?_, ?_⟩
    · rw [encode_mkDouble, doubleWord_rawSource]
      simp [encode, hj, hs, hd, rawSource]
    · rw [normalize_mkDouble, hnorm, ← eq_mkDouble_of_asDouble hd, hfin]
  | none =>
    obtain rfl : i = .invalid := by simpa [Instr.wellFormed, hj, hs, hd] using h
    exact ⟨.invalid, rfl, rfl, rfl⟩

/-- Settles O31: the decoder reads back the instruction behind it (O30), and the later stages give it. -/
theorem pipelineReadsBackTheEncoding : Obligations.PipelineReadsBackTheEncoding := by
  unfold Obligations.PipelineReadsBackTheEncoding
  intro i more h
  obtain ⟨d, hform, henc, hfin⟩ := exists_decodedForm_of_wellFormed h
  obtain ⟨w0, exts, hwords, hdec⟩ := decoderReadsBackTheEncoding d more hform
  rw [henc] at hwords hdec
  exact ⟨w0, exts, hwords, resolve_eq_ok.mpr ⟨d, hdec, hfin⟩⟩

end Sys2Proof.Machine
end

section
/-! PROOFS. The flow-walker family (45_flow_walker.md): what each kind of instruction does in FLOW mode, what one step
leaves and where it leaves the cursor, and the statements O1, O3, O7, O11, O13, O14, O15, O21, O22, O23, O25, O49, O51
and O55. -/

namespace Sys2Proof.Machine

/-! ## What the pipeline answers is well-formed (R215, R230, R270) -/

theorem normalSourceOk_constSource {v : Int} (hv : v ∈ [0, 1, 2, 4, 8, -1]) :
    normalSourceOk (constSource v) = true := by
  revert v; decide

theorem mem_of_constValue {m : Mode} {v : Int} (h : constValue m = some v) : v ∈ [0, 1, 2, 4, 8, -1] := by
  cases m <;> cases h <;> decide

/-- R211: the normalizer gives a normal source. -/
theorem normalSourceOk_normSrc {o : Operand} (h : sourceOk o = true) : normalSourceOk (normSrc o) = true := by
  cases hc : constValue o.mode with
  | none => simp [normSrc_of_not_const hc, normalSourceOk, h, hc]
  | some v =>
    rw [normSrc_of_const hc]
    exact normalSourceOk_constSource (mem_of_constValue hc)

/-- R89, R211: register 3 gives constants only, so no normal source names it. -/
theorem reg_ne_three_of_normalSourceOk {o : Operand} (h : normalSourceOk o = true) : o.reg ≠ 3 := by
  have hconst : ∀ m : BitVec 2, constValue (modeTable 3 m) ≠ none := by decide
  rcases normalSourceOk_cases h with ⟨hdecoded, hno⟩ | ⟨v, -, rfl⟩
  · intro hreg
    simp only [sourceOk, modeOk, decide_eq_true_eq] at hdecoded
    obtain ⟨hmode, -, -⟩ := hdecoded
    rw [hreg] at hmode
    exact hconst _ (hmode ▸ hno)
  · exact (by decide : (0 : Reg) ≠ 3)

theorem normalSourceOk_plainOperand_direct {r : Reg} (h : r ≠ 3) : normalSourceOk (plainOperand r .direct) = true := by
  revert r; decide

/-- R93: a destination in DIRECT mode has no extension word. -/
theorem eq_plainOperand_of_destOk {dst : Operand} (h : destOk dst = true) (hm : dst.mode = .direct) :
    dst = plainOperand dst.reg .direct := by
  obtain ⟨reg, mode, ext, cg⟩ := dst
  simp only at hm
  subst hm
  simp only [destOk, decide_eq_true_eq] at h
  obtain ⟨-, -, hext, rfl⟩ := h
  simpa [plainOperand, needsExtD] using hext

/-- An idiom is well-formed when its row matches its base, a double-operand instruction with a normal source. -/
theorem wellFormed_of_row {p : Instr} {op : DOp} {bw : Bit} {src dst : Operand}
    (hbase : base p = mkDouble op bw src dst) (hsrc : normalSourceOk src = true) (hdst : destOk dst = true)
    (hrow : recognize (mkDouble op bw src dst) = some p) :
    p.wellFormed = true := by
  have hsingle : asSingle p = none := by
    refine Option.eq_none_iff_forall_ne_some.mpr ?_
    rintro ⟨op', bw', o⟩ hs
    have hpseudo := asPseudo_isSome_of_recognize hrow
    simp [eq_mkSingle_of_asSingle hs] at hpseudo
  simp [Instr.wellFormed, asJump_of_recognize hrow, hsingle, hbase, hsrc, hdst, final, hrow]

theorem wellFormed_rla (bw : Bit) {src dst : Operand} (hsrc : normalSourceOk src = true) (hdst : destOk dst = true)
    (hreg : src.reg = dst.reg) : (Instr.rla bw dst).wellFormed = true :=
  wellFormed_of_row (op := .add) rfl
    (normalSourceOk_plainOperand_direct (hreg ▸ reg_ne_three_of_normalSourceOk hsrc)) hdst (if_pos rfl)

section Rows

variable {bw : Bit} {src dst : Operand} {p : Instr}

/-- R234 to R238: CLR and POP keep a destination, BR keeps the source. -/
theorem wellFormed_of_recognizeMov (hsrc : normalSourceOk src = true) (hdst : destOk dst = true)
    (h : recognizeMov bw src dst = some p) : p.wellFormed = true := by
  have hrow := h
  unfold recognizeMov at h
  split_ifs at h with hclr hnop hret hpop hbr <;> cases h
  · exact wellFormed_of_row (op := .mov) rfl (by decide) hdst rfl
  · exact wellFormed_of_row (op := .mov) rfl (by decide) (by decide) rfl
  · exact wellFormed_of_row (op := .mov) rfl (by decide) (by decide) rfl
  · refine wellFormed_of_row (op := .mov) rfl (by decide) hdst ?_
    have hreg : ¬ dst.reg = 0#4 := hpop.2
    simp [mkDouble, recognize, asDouble, recognizeMov, plainOperand, SrcImm, SrcPop, hreg]
  · obtain ⟨hreg, hmode⟩ := hbr
    have hplain := eq_plainOperand_of_destOk hdst hmode
    rw [hreg] at hplain
    rw [hplain] at hrow
    exact wellFormed_of_row (op := .mov) rfl hsrc (by decide) hrow

/-- R239 to R246: a flag idiom carries its size flag alone. -/
theorem wellFormed_of_recognizeBic (h : recognizeBic bw src dst = some p) : p.wellFormed = true := by
  unfold recognizeBic at h
  split_ifs at h <;> cases h <;> revert bw <;> decide

theorem wellFormed_of_recognizeBis (h : recognizeBis bw src dst = some p) : p.wellFormed = true := by
  unfold recognizeBis at h
  split_ifs at h <;> cases h <;> revert bw <;> decide

/-- R247, R251: INC comes after RLA, so its destination is not the register of its constant. -/
theorem wellFormed_of_recognizeAdd (hsrc : normalSourceOk src = true) (hdst : destOk dst = true)
    (h : recognizeAdd bw src dst = some p) : p.wellFormed = true := by
  unfold recognizeAdd at h
  split_ifs at h with hrla hinc <;> cases h
  · exact wellFormed_rla bw hsrc hdst hrla
  · obtain ⟨hreg, -⟩ := hinc
    have hother : (constSource 1).reg ≠ dst.reg := by rwa [hreg] at hrla
    exact wellFormed_of_row (op := .add) rfl (by decide) hdst ((if_neg hother).trans rfl)

theorem wellFormed_of_recognizeAddc (hsrc : normalSourceOk src = true) (hdst : destOk dst = true)
    (h : recognizeAddc bw src dst = some p) : p.wellFormed = true := by
  unfold recognizeAddc at h
  split_ifs at h with hrla
  cases h
  exact wellFormed_rla bw hsrc hdst hrla

theorem wellFormed_of_recognizeCmp (hdst : destOk dst = true) (h : recognizeCmp bw src dst = some p) :
    p.wellFormed = true := by
  unfold recognizeCmp at h
  split_ifs at h
  cases h
  exact wellFormed_of_row (op := .cmp) rfl (by decide) hdst rfl

theorem wellFormed_of_recognizeSub (hdst : destOk dst = true) (h : recognizeSub bw src dst = some p) :
    p.wellFormed = true := by
  unfold recognizeSub at h
  split_ifs at h
  cases h
  exact wellFormed_of_row (op := .sub) rfl (by decide) hdst rfl

/-- R232: every row answers a well-formed idiom. -/
theorem wellFormed_of_recognize {op : DOp} (hsrc : normalSourceOk src = true) (hdst : destOk dst = true)
    (h : recognize (mkDouble op bw src dst) = some p) : p.wellFormed = true := by
  cases op with
  | mov => exact wellFormed_of_recognizeMov hsrc hdst h
  | add => exact wellFormed_of_recognizeAdd hsrc hdst h
  | addc => exact wellFormed_of_recognizeAddc hsrc hdst h
  | sub => exact wellFormed_of_recognizeSub hdst h
  | cmp => exact wellFormed_of_recognizeCmp hdst h
  | bic => exact wellFormed_of_recognizeBic h
  | bis => exact wellFormed_of_recognizeBis h
  | subc | dadd | bit | xor | and => cases h

end Rows

theorem wellFormed_final_mkDouble {op : DOp} {bw : Bit} {src dst : Operand} (hsrc : normalSourceOk src = true)
    (hdst : destOk dst = true) : (final (mkDouble op bw src dst)).wellFormed = true := by
  cases hrec : recognize (mkDouble op bw src dst) with
  | none =>
    have hfin := final_of_recognize_none hrec
    rw [hfin]
    simp [Instr.wellFormed, hsrc, hdst, hfin]
  | some p =>
    have hfin : final (mkDouble op bw src dst) = p := by simp [final, hrec]
    rw [hfin]
    exact wellFormed_of_recognize hsrc hdst hrec

/-- R230, R270: normalizing and recognizing what the decoder can emit. -/
theorem wellFormed_of_decodedForm {d : Instr} (h : d.decodedForm = true) :
    (final (normalizeInstr d)).wellFormed = true := by
  rcases decodedForm_cases h with ⟨c, off, rfl, hlo, hhi⟩ | ⟨op, bw, o, rfl, ho⟩ |
    ⟨op, bw, src, dst, rfl, hsrc, hdst⟩ | rfl
  · simp [jumpFieldsOk, hlo, hhi]
  · simp [ho]
  · rw [normalize_mkDouble]
    exact wellFormed_final_mkDouble (normalSourceOk_normSrc hsrc) hdst
  · rfl

theorem wellFormed_of_resolve {w0 : Word} {exts : List Word} {fin : Instr} {len : Nat}
    (h : resolve w0 exts = .ok fin len) : fin.wellFormed = true := by
  obtain ⟨d, hd, rfl⟩ := resolve_eq_ok.mp h
  obtain ⟨hform, -⟩ := decodedInstructionIsWellFormed w0 exts d len hd
  exact wellFormed_of_decodedForm hform

/-- R270: the step runs the fetched instruction in the state whose `WU` holds its words. -/
theorem step_eq_exec_of_fetch {s : State} {fin : Instr} {words : List Word} (hr : s.status = .run)
    (hf : fetch s = .instr fin words) : step s = exec fin (consume words s) := by
  rw [step_of_instr hr hf, exec_eq]

/-- Settles O1: a step at a word that resolves runs what the pipeline answers, which is well-formed. -/
theorem stepRunsTheDecodedInstruction : Obligations.StepRunsTheDecodedInstruction := by
  unfold Obligations.StepRunsTheDecodedInstruction
  intro s w0 exts fin len hr hw hres
  obtain ⟨hpos, hle, -⟩ := resolve_restsOnItsWords hres
  exact ⟨wellFormed_of_resolve hres, hpos, by omega, step_eq_exec_of_fetch hr (fetch_of_resolve hw hres)⟩

/-! ## The end of the stream and the loader's refusals (R271, R316, R341) -/

/-- Settles O3: the test for the end marker comes before the fetch. -/
theorem endOfStreamEndsTheRun : Obligations.EndOfStreamEndsTheRun := by
  unfold Obligations.EndOfStreamEndsTheRun
  intro s hr hend
  simp [step, hr, atEnd, hend, stop]

/-- R316, R340: the launch of an odd input that fits. -/
theorem launch_of_odd {cfg : Config} {b : List Byte} (hfit : b.length ≤ 2 * cfg.nmax) (hodd : b.length % 2 = 1) :
    launch cfg b = .next { State.resetWith cfg with
      status := .fault, cause := .malformedLength, faultInfo := (b.length : Int) } := by
  unfold launch
  rw [if_neg (by omega), if_pos hodd]

/-- Settles O55: the fault state of an odd input holds no word, and is terminal. -/
theorem loaderRefusals : Obligations.LoaderRefusals := by
  unfold Obligations.LoaderRefusals
  refine fun cfg b => ⟨fun hlong => if_pos hlong, fun hfit hodd => ?_⟩
  refine ⟨_, launch_of_odd hfit hodd, rfl, rfl, rfl, rfl, rfl, rfl, fun i => ?_, rfl⟩
  exact (readWord_eq_none_iff _ i).mpr i.eq_zero_or_pos

/-! ## Jumps and the instructions stepped over (R275, R282) -/

/-- Settles O7: with room in the queue, `exec` of a jump is the retired jump, written out. -/
theorem jumpEnqueuesItsTarget : Obligations.JumpEnqueuesItsTarget := by
  unfold Obligations.JumpEnqueuesItsTarget
  intro c off disp s hflow hroom
  rw [exec_eq, retire_mkJump_of_room c off disp hflow hroom]
  rfl

theorem not_steppedOver_mkJump (c : Cond) (off disp : Int) : ¬ SteppedOver (mkJump c off disp) := by
  cases c <;> exact id

theorem flowAct_of_steppedOver {i : Instr} (h : SteppedOver i) (s : State) : flowAct i s = advance s := by
  rcases flowAct_forms i s with ⟨c, off, disp, rfl, -⟩ | ⟨bw, d, _, rfl, -⟩ | ⟨bw, rfl, -⟩ | ⟨rfl, -⟩ | hadvance
  · exact absurd h (not_steppedOver_mkJump c off disp)
  · exact absurd rfl (h d)
  · exact False.elim h
  · exact False.elim h
  · exact hadvance

/-- Settles O11: the flow action of each of them is to move the cursor past its words. -/
theorem otherInstructionsAreSteppedOver : Obligations.OtherInstructionsAreSteppedOver := by
  unfold Obligations.OtherInstructionsAreSteppedOver
  intro i s hflow h
  rw [exec_eq, retire_flow hflow, flowAct_of_steppedOver h]
  rfl

/-! ## RET (R277 to R280) -/

/-- R274, R277: in a step that has marked its start, the candidates that count as visited. -/
theorem visited_marked_iff {i : Instr} {s : State} {c : Int} :
    visited (markVisited (emit i s)) c = true ↔ SeenBy s c := by
  simp [visited, SeenBy, index]

theorem retAct_of_candidate {s : State} {pre post : List Int} {c : Int} (hbq : s.bq = pre ++ c :: post)
    (hpre : ∀ x ∈ pre, visited s x = true) (hc : visited s c = false) : retAct s = resume c (setQueue post s) := by
  rw [retAct, drain_some_iff.mpr ⟨pre, hbq, hpre, hc⟩]

theorem retAct_of_all_visited {s : State} (h : ∀ x ∈ s.bq, visited s x = true) :
    retAct s = retFallback (setQueue [] s) := by
  rw [retAct, drain_none_iff.mpr h]

theorem retFallback_of_cons {s : State} {r : Int} {rest : List Int} (h : s.cs = r :: rest) :
    retFallback s = resume r (setStack rest s) := by
  rw [retFallback, h]

theorem retFallback_of_nil {s : State} (h : s.cs = []) : retFallback s = stop .exhausted s := by
  rw [retFallback, h]

section Ret

variable {s : State} (bw : Bit)

theorem exec_ret_of_flow (hflow : s.cfg.mode = .flow) :
    exec (.ret bw) s = .next (retAct (markVisited (emit (.ret bw) s))) := by
  rw [exec_eq, retire_flow hflow]
  rfl

/-- R277: with a candidate that is not visited behind visited ones, RET dequeues all of them and resumes there. -/
theorem exec_ret_of_candidate {pre post : List Int} {c : Int} (hflow : s.cfg.mode = .flow)
    (hbq : s.bq = pre ++ c :: post) (hpre : ∀ x ∈ pre, SeenBy s x) (hc : ¬ SeenBy s c) :
    exec (.ret bw) s = .next (resume c (setQueue post (markVisited (emit (.ret bw) s)))) := by
  have hnew : visited (markVisited (emit (.ret bw) s)) c = false :=
    Bool.eq_false_iff.mpr (mt visited_marked_iff.mp hc)
  rw [exec_ret_of_flow bw hflow,
    retAct_of_candidate (s := markVisited (emit (.ret bw) s)) hbq (fun x hx => visited_marked_iff.mpr (hpre x hx)) hnew]

/-- R277: with every candidate visited, RET drains the queue and falls back. -/
theorem exec_ret_of_all_seen (hflow : s.cfg.mode = .flow) (hseen : ∀ x ∈ s.bq, SeenBy s x) :
    exec (.ret bw) s = .next (retFallback (setQueue [] (markVisited (emit (.ret bw) s)))) := by
  rw [exec_ret_of_flow bw hflow, retAct_of_all_visited fun x hx => visited_marked_iff.mpr (hseen x hx)]

end Ret

/-- Settles O13: the drain stops at the candidate, and the resume accepts it. -/
theorem retResumesAtTheFirstUnvisitedCandidate : Obligations.RetResumesAtTheFirstUnvisitedCandidate := by
  unfold Obligations.RetResumesAtTheFirstUnvisitedCandidate
  intro bw s pre post c hflow hbq hpre hc hvalid
  rw [exec_ret_of_candidate bw hflow hbq hpre hc, resume_of_valid]
  · rfl
  · exact hvalid

/-- Settles O14: the drained queue leaves the top of the stack, and the resume accepts it. -/
theorem retPopsTheCallStack : Obligations.RetPopsTheCallStack := by
  unfold Obligations.RetPopsTheCallStack
  intro bw s r rest hflow hseen hcs hvalid
  have hpop := retFallback_of_cons (s := setQueue [] (markVisited (emit (.ret bw) s))) hcs
  rw [exec_ret_of_all_seen bw hflow hseen, hpop, resume_of_valid]
  · simp only [moveTo, setStack, setQueue, markVisited, emit, recordOf, index]
  · exact hvalid

/-- Settles O15: the drained queue and the empty stack leave nothing to resume at. -/
theorem retExhaustsTheWalk : Obligations.RetExhaustsTheWalk := by
  unfold Obligations.RetExhaustsTheWalk
  intro bw s hflow hseen hcs
  rw [exec_ret_of_all_seen bw hflow hseen, retFallback_of_nil]
  · rfl
  · exact hcs

/-! ## What a step at a fetched instruction leaves (R270, R274, R288) -/

/-- R65, R103: a fetched instruction starts on a loaded word, and its one to three words are in the stream. -/
theorem words_of_fetch {s : State} {fin : Instr} {words : List Word} (hf : fetch s = .instr fin words) :
    1 ≤ s.idx ∧ 1 ≤ words.length ∧ words.length ≤ 3 ∧ s.idx + words.length ≤ s.n + 1 := by
  obtain ⟨⟨-, hpos, hthree, -, hstart, hend⟩, -⟩ := record_of_fetch hf
  simp only [recordOf, consume_wu, consume_idx, addr] at hpos hthree hstart hend
  omega

/-- R34, R274: the start of a fetched instruction, as a RET finds it in the queue, is visited. -/
theorem seenBy_start {s : State} {fin : Instr} {words : List Word} (hf : fetch s = .instr fin words) :
    SeenBy s (addr s.idx) := by
  obtain ⟨hidx, hpos, -, hend⟩ := words_of_fetch hf
  exact ⟨addr_even _, addr_nonneg hidx, by unfold addr; omega, .inl (index_addr hidx)⟩

theorem retire_flow_vis {i : Instr} {s : State} (hflow : s.cfg.mode = .flow) :
    (retire i (flowAct i) s).vis = visInsert s.idx s.vis := by
  rw [retire_flow hflow]
  exact (flowAct_same i _).vis

/-- Settles O21: the mark is all that changes VIS, and the start it marks is a candidate RET has seen. -/
theorem flowStepMarksItsStart : Obligations.FlowStepMarksItsStart := by
  unfold Obligations.FlowStepMarksItsStart
  intro s t fin words hr hflow hf hstep
  refine ⟨fun j => ?_, ?_⟩
  · obtain rfl := Host.Outcome.next.inj ((step_of_instr hr hf).symm.trans hstep)
    rw [retire_flow_vis (s := consume words s) hflow, mem_visInsert]
    exact or_comm
  · rintro bw rfl hbq hcs
    have hseen : ∀ x ∈ s.bq, SeenBy s x := by
      rw [hbq, List.forall_mem_singleton]
      exact seenBy_start hf
    rw [step_eq_exec_of_fetch hr hf, retExhaustsTheWalk bw (consume words s) hflow hseen hcs] at hstep
    obtain rfl := Host.Outcome.next.inj hstep
    exact ⟨rfl, rfl⟩

/-- Settles O22: only a fetched instruction leaves a record, and that record was read from the stream. -/
theorem stepEmitsAtMostOneRecord : Obligations.StepEmitsAtMostOneRecord := by
  unfold Obligations.StepEmitsAtMostOneRecord
  intro s t hstep
  rcases step_cases hstep with ⟨-, rfl⟩ | ⟨-, -, rfl⟩ | ⟨need, -, -, rfl⟩ | ⟨fin, words, -, hf, rfl⟩
  · exact .inl rfl
  · exact .inl rfl
  · exact .inl rfl
  · obtain ⟨v, same, -, -⟩ := retire_same fin (consume words s)
    obtain ⟨hidx, hpos, hthree, -⟩ := words_of_fetch hf
    obtain ⟨-, hread, -⟩ := record_of_fetch hf
    refine .inr ⟨recordOf fin (consume words s), same.records, rfl, rfl, same.wu, hpos, hthree, ?_⟩
    have hstart : index (recordOf fin (consume words s)).start = s.idx := index_addr hidx
    rwa [hstart] at hread

/-- Settles O51: the popped address is one the resume accepts. -/
theorem stackedReturnNeverFaults : Obligations.StackedReturnNeverFaults := by
  unfold Obligations.StackedReturnNeverFaults
  intro s bw words r rest hstack hr hflow hf hseen hcs
  have hvalid : ValidTarget s.n r := hstack r (by simp [hcs])
  have ⟨heven, hnonneg, _⟩ := hvalid
  rw [step_eq_exec_of_fetch hr hf, retPopsTheCallStack bw (consume words s) r rest hflow hseen hcs hvalid]
  exact ⟨_, rfl, hr, addr_index heven hnonneg, rfl, rfl⟩

/-! ## The faults of a step (R288, R312) -/

theorem resolve_eq_trunc {w0 : Word} {exts : List Word} {need : Nat} :
    resolve w0 exts = .trunc need ↔ decode w0 exts = .trunc need := by
  unfold resolve
  cases decode w0 exts <;> simp

/-- R104: a truncated instruction needs two words or three. -/
theorem need_of_fetch_truncated {s : State} {need : Nat} (hf : fetch s = .truncated need) : need = 2 ∨ need = 3 := by
  rcases fetch_cases s with ⟨-, h⟩ | ⟨w0, exts, need', -, hres, h⟩ | ⟨_, _, _, _, -, -, h⟩
  · simp [h] at hf
  · obtain rfl : need' = need := by simpa [h] using hf
    exact (truncationExactlyWhenWordsAreMissing w0 exts need').2 (resolve_eq_trunc.mp hres)
  · simp [h] at hf

theorem linearAct_status_ne_fault {s : State} (i : Instr) (hr : s.status = .run) :
    (linearAct i s).status ≠ .fault := by
  rcases linearAct_cases i s with ⟨-, -, h⟩ | ⟨-, h⟩ <;> simp [h, advance, hr]

/-- R288: the five ways a flow action faults, with the instruction and the state it is raised in. -/
theorem flowAct_fault_cases {i : Instr} {s : State} (hfault : (flowAct i s).status = .fault) (hr : s.status = .run) :
    (∃ c off disp, i = mkJump c off disp ∧ s.bq.length = s.cfg.qd ∧
      flowAct i s = raiseFault .queueOverflow (addr s.idx + disp) s) ∨
    (∃ bw d, i = .call bw (immediate d) ∧ s.cs.length = s.cfg.sd ∧
      flowAct i s = raiseFault .stackOverflow (addr s.idx + 2 * (s.wu.length : Int)) s) ∨
    (∃ bw d, i = .call bw (immediate d) ∧ s.cs.length ≠ s.cfg.sd ∧ ¬ ValidTarget s.n (zext16 d) ∧
      flowAct i s =
        raiseFault .badTarget (zext16 d) (setStack ((addr s.idx + 2 * (s.wu.length : Int)) :: s.cs) s)) ∨
    (∃ bw pre c rest, i = .ret bw ∧ s.bq = pre ++ c :: rest ∧ (∀ x ∈ pre, visited s x = true) ∧
      visited s c = false ∧ ¬ ValidTarget s.n c ∧ flowAct i s = raiseFault .badTarget c (setQueue rest s)) ∨
    (∃ bw r rest, i = .ret bw ∧ (∀ x ∈ s.bq, visited s x = true) ∧ s.cs = r :: rest ∧ ¬ ValidTarget s.n r ∧
      flowAct i s = raiseFault .badTarget r (setStack rest (setQueue [] s))) := by
  rcases flowAct_forms i s with ⟨c, off, disp, hi, ⟨-, h⟩ | ⟨hfull, h⟩⟩ |
    ⟨bw, d, ret, hi, rfl, ⟨hfull, h⟩ | ⟨-, -, h⟩ | ⟨hroom, hbad, h⟩⟩ |
    ⟨bw, hi, ⟨pre, c, rest, hbq, hpre, hc, ⟨-, h⟩ | ⟨hbad, h⟩⟩ |
      ⟨r, rest, hseen, hcs, ⟨-, h⟩ | ⟨hbad, h⟩⟩ | ⟨-, -, h⟩⟩ |
    ⟨-, ⟨-, h⟩ | ⟨-, h⟩⟩ | h
  · simp [h, hr] at hfault
  · exact .inl ⟨c, off, disp, hi, hfull, h⟩
  · exact .inr (.inl ⟨bw, d, hi, hfull, h⟩)
  · simp [h, hr] at hfault
  · exact .inr (.inr (.inl ⟨bw, d, hi, hroom, hbad, h⟩))
  · simp [h, hr] at hfault
  · exact .inr (.inr (.inr (.inl ⟨bw, pre, c, rest, hi, hbq, hpre, hc, hbad, h⟩)))
  · simp [h, hr] at hfault
  · exact .inr (.inr (.inr (.inr ⟨bw, r, rest, hi, hseen, hcs, hbad, h⟩)))
  · simp [h] at hfault
  · simp [h] at hfault
  · simp [h, hr] at hfault
  · simp [h, advance, hr] at hfault

/-- R312: fault entry records the start address, and the cursor stays at it. -/
theorem flowAct_fault_entry {i : Instr} {s : State} (hfault : (flowAct i s).status = .fault) (hr : s.status = .run) :
    (flowAct i s).faultAddr = addr s.idx ∧ (flowAct i s).idx = s.idx := by
  rcases flowAct_fault_cases hfault hr with ⟨_, _, _, -, -, h⟩ | ⟨_, _, -, -, h⟩ | ⟨_, _, -, -, -, h⟩ |
    ⟨_, _, _, _, -, -, -, -, -, h⟩ | ⟨_, _, _, -, -, -, -, h⟩ <;> rw [h] <;> exact ⟨rfl, rfl⟩

/-- Settles O23: a truncation faults before anything else is done, and a flow action after the record and the mark. -/
theorem faultEntryIsPrecise : Obligations.FaultEntryIsPrecise := by
  unfold Obligations.FaultEntryIsPrecise
  intro s t hr hstep hfault
  rcases step_cases hstep with ⟨hterm, -⟩ | ⟨-, -, rfl⟩ | ⟨need, -, hf, rfl⟩ | ⟨fin, words, -, hf, rfl⟩
  · exact absurd hr hterm
  · simp at hfault
  · have hneed := need_of_fetch_truncated hf
    refine ⟨rfl, rfl, .inl ⟨rfl, ?_, rfl, rfl, rfl, rfl⟩⟩
    simp only [raiseFault_faultInfo]
    omega
  · cases hm : s.cfg.mode with
    | linear =>
      rw [retire_linear (s := consume words s) hm] at hfault
      exact absurd hfault (linearAct_status_ne_fault fin hr)
    | flow =>
      have hseen : ∀ x, visited (markVisited (emit fin (consume words s))) x = true ↔ SeenBy s x :=
        fun _ => visited_marked_iff
      rw [retire_flow (s := consume words s) hm] at hfault ⊢
      have same := flowAct_same fin (markVisited (emit fin (consume words s)))
      obtain ⟨haddr, hidx⟩ := flowAct_fault_entry hfault hr
      refine ⟨haddr, hidx, .inr ⟨fin, words, hf, rfl, same.records, same.vis, ?_⟩⟩
      rcases flowAct_fault_cases hfault hr with
        ⟨c, off, disp, rfl, hfull, h⟩ | ⟨bw, d, rfl, hfull, h⟩ | ⟨bw, d, rfl, hroom, hbad, h⟩ |
        ⟨bw, pre, c, rest, rfl, hbq, hpre, hc, hbad, h⟩ | ⟨bw, r, rest, rfl, hall, hcs, hbad, h⟩ <;> rw [h]
      · exact .inl ⟨rfl, ⟨c, off, disp, rfl, rfl⟩, hfull, rfl, rfl⟩
      · exact .inr (.inl ⟨rfl, ⟨bw, d, rfl⟩, rfl, hfull, rfl, rfl⟩)
      · exact .inr (.inr ⟨rfl, hbad, .inl ⟨bw, d, rfl, rfl, hroom, rfl, rfl⟩⟩)
      · refine .inr (.inr ⟨rfl, hbad, .inr (.inl ⟨bw, pre, rfl, hbq, fun x hx => (hseen x).mp (hpre x hx), ?_, rfl⟩)⟩)
        exact mt (hseen c).mpr (Bool.eq_false_iff.mp hc)
      · exact .inr (.inr ⟨rfl, hbad, .inr (.inr ⟨bw, rfl, fun x hx => (hseen x).mp (hall x hx), rfl, hcs⟩)⟩)

/-! ## Where a step leaves the cursor (R281, R282, R287) -/

/-- R210, R231: what is no double-operand instruction and no idiom after the later stages was decoded as it is. -/
theorem eq_of_final_normalizeInstr {d i : Instr} (h : final (normalizeInstr d) = i) (hdouble : asDouble i = none)
    (hpseudo : asPseudo i = none) : d = i := by
  rcases normalizeInstr_cases d with ⟨hd, hsame⟩ | ⟨op, bw, src, dst, -, hnorm⟩
  · rwa [hsame, final_of_recognize_none (recognize_of_asDouble_none hd)] at h
  · rw [hnorm] at h
    cases hrec : recognize (mkDouble op bw (normSrc src) dst) with
    | none =>
      rw [final_of_recognize_none hrec] at h
      simp [← h] at hdouble
    | some p =>
      obtain rfl : p = i := by simpa [final, hrec] using h
      have := asPseudo_isSome_of_recognize hrec
      simp [hpseudo] at this

@[simp] theorem mkJump_ne_invalid (c : Cond) (off disp : Int) : mkJump c off disp ≠ .invalid := by
  cases c <;> simp [mkJump]

@[simp] theorem mkSingle_ne_invalid (op : SOp) (bw : Bit) (o : Operand) : mkSingle op bw o ≠ .invalid := by
  cases op <;> simp [mkSingle]

@[simp] theorem mkDouble_ne_invalid (op : DOp) (bw : Bit) (src dst : Operand) : mkDouble op bw src dst ≠ .invalid := by
  cases op <;> simp [mkDouble]

@[simp] theorem asPseudo_mkJump (c : Cond) (off disp : Int) : asPseudo (mkJump c off disp) = none := by
  cases c <;> rfl

/-- R97: a jump has one word, which is all its encoding has. -/
theorem len_of_resolve_mkJump {w0 : Word} {exts : List Word} {c : Cond} {off disp : Int} {len : Nat}
    (h : resolve w0 exts = .ok (mkJump c off disp) len) : len = 1 := by
  obtain ⟨d, hd, hfin⟩ := resolve_eq_ok.mp h
  obtain rfl := eq_of_final_normalizeInstr hfin (asDouble_mkJump c off disp) (asPseudo_mkJump c off disp)
  obtain ⟨own, more, -, rfl, hreads⟩ := reads_of_decode hd
  have hwords := hreads.words (mkJump_ne_invalid c off disp)
  rw [encode_mkJump] at hwords
  obtain ⟨-, rfl⟩ := List.cons.inj hwords
  rfl

/-- R112: `Invalid` has one word: it is answered before an operand is looked at. -/
theorem len_of_decode_invalid {w0 : Word} {exts : List Word} {len : Nat} (h : decode w0 exts = .ok .invalid len) :
    len = 1 := by
  cases hf : flavor w0 with
  | jump =>
    rw [decode_of_jump _ hf] at h
    exact (Decoded.ok.inj h).2.symm
  | single =>
    rw [decode_of_single _ hf] at h
    cases hop : sopOf (field w0 7 3) with
    | none => simpa [decodeSingle, hop, eq_comm] using h
    | some op =>
      simp only [decodeSingle, hop] at h
      split_ifs at h
      · cases exts <;> simp at h
      · simp at h
  | double =>
    rw [decode_of_double _ hf] at h
    cases hop : dopOf (field w0 12 4) with
    | none => simpa [decodeDouble, hop, eq_comm] using h
    | some op =>
      simp only [decodeDouble, hop] at h
      split at h <;> simp at h

theorem len_of_resolve_invalid {w0 : Word} {exts : List Word} {len : Nat}
    (h : resolve w0 exts = .ok .invalid len) : len = 1 := by
  obtain ⟨d, hd, hfin⟩ := resolve_eq_ok.mp h
  obtain rfl := eq_of_final_normalizeInstr hfin rfl rfl
  exact len_of_decode_invalid hd

/-- R45: a fetched instruction is what the pipeline answers, and its words are as many as the answer's length. -/
theorem resolve_of_fetch {s : State} {fin : Instr} {words : List Word} (hf : fetch s = .instr fin words) :
    ∃ w0 exts, resolve w0 exts = .ok fin words.length := by
  obtain ⟨-, -, hread⟩ := record_of_fetch hf
  obtain ⟨w0, -, hres⟩ := Option.map_eq_some_iff.mp hread
  exact ⟨w0, _, hres⟩

/-- R282, R287: a flow action that leaves the walk in RUN moves the cursor past the words, or follows a CALL or RET. -/
theorem flowAct_idx_of_run {i : Instr} {s : State} (hrun : (flowAct i s).status = .run)
    (hjump : ∀ c off disp, i = mkJump c off disp → s.wu.length = 1) (hinvalid : i = .invalid → s.wu.length = 1) :
    (flowAct i s).idx = s.idx + s.wu.length ∨ (∃ bw d, i = .call bw (immediate d)) ∨ ∃ bw, i = .ret bw := by
  rcases flowAct_forms i s with ⟨c, off, disp, hi, ⟨-, h⟩ | ⟨-, h⟩⟩ | ⟨bw, d, _, hi, -⟩ | ⟨bw, hi, -⟩ |
    ⟨hi, ⟨-, h⟩ | ⟨-, h⟩⟩ | h
  · exact .inl (by rw [h, hjump c off disp hi]; rfl)
  · simp [h] at hrun
  · exact .inr (.inl ⟨bw, d, hi⟩)
  · exact .inr (.inr ⟨bw, hi⟩)
  · simp [h] at hrun
  · exact .inl (by rw [h, hinvalid hi]; rfl)
  · exact .inl (by rw [h]; rfl)

theorem linearAct_idx_of_run {i : Instr} {s : State} (hrun : (linearAct i s).status = .run) :
    (linearAct i s).idx = s.idx + s.wu.length := by
  rcases linearAct_cases i s with ⟨-, -, h⟩ | ⟨-, h⟩
  · simp [h] at hrun
  · rw [h]; rfl

/-- Settles O25: only a retired instruction leaves the walk in RUN, and its action moves the cursor. -/
theorem onlyCallAndRetRedirectTheCursor : Obligations.OnlyCallAndRetRedirectTheCursor := by
  unfold Obligations.OnlyCallAndRetRedirectTheCursor
  intro s t hr hstep hrun
  rcases step_cases hstep with ⟨hterm, -⟩ | ⟨-, -, rfl⟩ | ⟨need, -, -, rfl⟩ | ⟨fin, words, -, hf, rfl⟩
  · exact absurd hr hterm
  · simp at hrun
  · simp at hrun
  · obtain ⟨v, same, -, -⟩ := retire_same fin (consume words s)
    obtain ⟨w0, exts, hres⟩ := resolve_of_fetch hf
    refine ⟨fin, words, hf, same.wu, ?_⟩
    cases hm : s.cfg.mode with
    | linear =>
      rw [retire_linear (s := consume words s) hm] at hrun ⊢
      exact .inl (linearAct_idx_of_run hrun)
    | flow =>
      rw [retire_flow (s := consume words s) hm] at hrun ⊢
      have hidx := flowAct_idx_of_run hrun (fun c off disp hi => len_of_resolve_mkJump (hi ▸ hres))
        (fun hi => len_of_resolve_invalid (hi ▸ hres))
      exact hidx.imp id fun hfollowed => ⟨rfl, hfollowed⟩

/-! ## A LINEAR run ends (R289) -/

/-- R273: a LINEAR step that leaves the walk in RUN moves the cursor on, and within its range. -/
theorem linear_step_idx {s t : State} (hlinear : s.cfg.mode = .linear) (hr : s.status = .run) (hstep : step s = .next t)
    (hrun : t.status = .run) : s.idx < t.idx ∧ t.idx ≤ s.n + 1 := by
  obtain ⟨fin, words, hf, -, hidx | ⟨hflow, -⟩⟩ := onlyCallAndRetRedirectTheCursor s t hr hstep hrun
  · have := words_of_fetch hf
    omega
  · simp [hlinear] at hflow

/-- R289: each step that leaves the walk in RUN brings the cursor nearer to the end marker, whose step is the last. -/
theorem linear_run_terminates_of_bound (m : Nat) (s : State) (hin : s.CursorInRange) (hlinear : s.cfg.mode = .linear)
    (hm : s.n + 2 - s.idx ≤ m) :
    ∃ k t, k ≤ s.n + 2 - s.idx ∧ Host.Core.run core k s = .next t ∧ t.status ≠ .run := by
  obtain ⟨hpos, hle⟩ := hin
  induction m generalizing s with
  | zero => omega
  | succ m ih =>
    by_cases hr : s.status = .run
    · obtain ⟨t, hstep, -⟩ := invariantStatesAlwaysStep s ⟨hpos, hle⟩
      by_cases hrun : t.status = .run
      · obtain ⟨-, hn, -, hcfg⟩ := step_keeps_stream hstep
        obtain ⟨hmoved, hend⟩ := linear_step_idx hlinear hr hstep hrun
        obtain ⟨k, u, hk, hu, hterm⟩ := ih t (by rw [hcfg, hlinear]) (by omega) (by omega) (by omega)
        exact ⟨k + 1, u, by omega, (run_succ_of_next k hstep).trans hu, hterm⟩
      · exact ⟨1, t, by omega, run_succ_of_next 0 hstep, hrun⟩
    · exact ⟨0, s, by omega, rfl, hr⟩

/-- Settles O49: the words from the cursor to the end marker, and the end marker itself, are steps enough. -/
theorem linearRunTerminates : Obligations.LinearRunTerminates := by
  unfold Obligations.LinearRunTerminates
  exact fun s hin hlinear => linear_run_terminates_of_bound _ s hin hlinear le_rfl

end Sys2Proof.Machine
end

section
/-! PROOFS. The other statements: MOV's and the arithmetic idioms (44_pseudo.md), the words of `Invalid` (30_encoding.md),
what is left of one instruction's meaning in each mode and of one step (45_flow_walker.md), what a step does not see, and
the states of reset and launch (70_reset_and_hazards.md): O4, O5, O6, O8, O9, O10, O12, O16, O17, O18, O24, O27, O28, O36,
O43, O45, O46, O47, O48, O50 and O54. -/

namespace Sys2Proof.Machine

/-! ## Followed jumps and CALLs that fault or resume (R276, R280, R283, R284) -/

/-- R283: with a full queue, a retired jump faults with the target that did not fit. -/
theorem retire_mkJump_of_full {s : State} (c : Cond) (off disp : Int) (hflow : s.cfg.mode = .flow)
    (hfull : s.bq.length = s.cfg.qd) :
    retire (mkJump c off disp) (flowAct (mkJump c off disp)) s =
      raiseFault .queueOverflow (addr s.idx + disp) (markVisited (emit (mkJump c off disp) s)) := by
  rw [retire_flow hflow, flowAct_mkJump]
  exact if_pos hfull

/-- Settles O8: with a full queue, `exec` of a jump is the retired jump that faults, written out. -/
theorem jumpIntoFullQueueFaults : Obligations.JumpIntoFullQueueFaults := by
  unfold Obligations.JumpIntoFullQueueFaults
  intro c off disp s hflow hfull
  rw [exec_eq, retire_mkJump_of_full c off disp hflow hfull]
  rfl

section Call

variable {s : State} (bw : Bit) {d : Word}

/-- R276: in FLOW mode an immediate CALL takes its action with the return address after its words. -/
theorem exec_call_immediate_of_flow (hflow : s.cfg.mode = .flow) :
    exec (.call bw (immediate d)) s =
      .next (callAct (addr s.idx + 2 * (s.wu.length : Int)) (zext16 d)
        (markVisited (emit (.call bw (immediate d)) s))) := by
  rw [exec_eq, retire_flow hflow]
  rfl

/-- R284: a full stack faults with the return address. -/
theorem exec_call_immediate_of_full (hflow : s.cfg.mode = .flow) (hfull : s.cs.length = s.cfg.sd) :
    exec (.call bw (immediate d)) s =
      .next (raiseFault .stackOverflow (addr s.idx + 2 * (s.wu.length : Int))
        (markVisited (emit (.call bw (immediate d)) s))) := by
  rw [exec_call_immediate_of_flow bw hflow]
  exact congrArg _ (if_pos hfull)

/-- R276: with room on the stack, the return address is pushed before the destination is checked. -/
theorem exec_call_immediate_of_room (hflow : s.cfg.mode = .flow) (hroom : s.cs.length ≠ s.cfg.sd) :
    exec (.call bw (immediate d)) s =
      .next (resume (zext16 d) (setStack ((addr s.idx + 2 * (s.wu.length : Int)) :: s.cs)
        (markVisited (emit (.call bw (immediate d)) s)))) := by
  rw [exec_call_immediate_of_flow bw hflow]
  exact congrArg _ (if_neg hroom)

end Call

/-- R280: a destination word is an address `resume` accepts when it is even and in the stream or at its end marker. -/
theorem validTarget_zext16 {n : Nat} {d : Word} : ValidTarget n (zext16 d) ↔ d.toNat % 2 = 0 ∧ d.toNat ≤ 2 * n := by
  unfold ValidTarget zext16
  omega

theorem index_zext16 (d : Word) : index (zext16 d) = d.toNat / 2 + 1 := by
  unfold index zext16
  omega

/-- Settles O9: there is room for the return address, and the resume accepts the destination. -/
theorem callImmediateIsFollowed : Obligations.CallImmediateIsFollowed := by
  unfold Obligations.CallImmediateIsFollowed
  intro bw d s hflow hroom heven hle
  rw [exec_call_immediate_of_room bw hflow hroom, resume_of_valid, index_zext16]
  · rfl
  · exact validTarget_zext16.mpr ⟨heven, hle⟩

/-- Settles O10: the push faults, or it is done and the resume faults. -/
theorem callImmediateFaults : Obligations.CallImmediateFaults := by
  unfold Obligations.CallImmediateFaults
  refine fun bw d s hflow => ⟨fun hfull => ?_, fun hroom hbad => ?_⟩
  · rw [exec_call_immediate_of_full bw hflow hfull]
    rfl
  · rw [exec_call_immediate_of_room bw hflow hroom, resume_of_not_valid]
    · rfl
    · rw [validTarget_zext16, setStack_n, markVisited_n, emit_n]
      omega

/-! ## `Invalid` and RET in FLOW mode (R277, R281) -/

theorem invalidAct_of_skip {s : State} (h : s.cfg.policy = .skip) : invalidAct s = moveTo (s.idx + 1) s := by
  rw [invalidAct, h]

theorem invalidAct_of_halt {s : State} (h : s.cfg.policy = .halt) : invalidAct s = stop .stoppedInvalid s := by
  rw [invalidAct, h]

theorem exec_invalid_of_flow {s : State} (hflow : s.cfg.mode = .flow) :
    exec .invalid s = .next (invalidAct (markVisited (emit .invalid s))) := by
  rw [exec_eq, retire_flow hflow]
  rfl

/-- Settles O12: the two policies of the action of `Invalid`. -/
theorem invalidFollowsThePolicy : Obligations.InvalidFollowsThePolicy := by
  unfold Obligations.InvalidFollowsThePolicy
  refine fun s hflow => ⟨fun hskip => ?_, fun hhalt => ?_⟩
  · rw [exec_invalid_of_flow hflow, invalidAct_of_skip]
    · rfl
    · exact hskip
  · rw [exec_invalid_of_flow hflow, invalidAct_of_halt]
    · rfl
    · exact hhalt

/-- R277, D19: a visited candidate is an address of the stream, so `resume` would accept it. -/
theorem SeenBy.validTarget {s : State} {c : Int} (h : SeenBy s c) : ValidTarget s.n c := by
  obtain ⟨heven, hnonneg, hle, -⟩ := h
  exact ⟨heven, hnonneg, by omega⟩

/-- Settles O16: the bad candidate is not visited, so the drain stops at it, and the resume rejects it. -/
theorem retBadCandidateFaults : Obligations.RetBadCandidateFaults := by
  unfold Obligations.RetBadCandidateFaults
  intro bw s pre post c hflow hbq hpre hbad
  rw [exec_ret_of_candidate bw hflow hbq hpre (mt SeenBy.validTarget hbad), resume_of_not_valid]
  · rfl
  · exact hbad

/-! ## LINEAR mode (R273) -/

theorem exec_of_linear {i : Instr} {s : State} (hlinear : s.cfg.mode = .linear) :
    exec i s = .next (linearAct i (emit i s)) := by
  rw [exec_eq, retire_linear hlinear]

/-- Settles O17: only `Invalid` under HALT is not stepped over. -/
theorem linearScanStepsOverEverything : Obligations.LinearScanStepsOverEverything := by
  unfold Obligations.LinearScanStepsOverEverything
  intro i s hlinear hgoes
  rw [exec_of_linear hlinear]
  rcases linearAct_cases i (emit i s) with ⟨rfl, hhalt, -⟩ | ⟨-, h⟩
  · have hskip : s.cfg.policy = .skip := hgoes.resolve_left (absurd rfl)
    simp [hskip] at hhalt
  · rw [h]
    rfl

/-- Settles O18: `Invalid` under HALT is the case of the action that stops. -/
theorem linearHaltStopsAtInvalid : Obligations.LinearHaltStopsAtInvalid := by
  unfold Obligations.LinearHaltStopsAtInvalid
  intro s hlinear hhalt
  rw [exec_of_linear hlinear]
  exact congrArg _ (if_pos ⟨rfl, hhalt⟩)

/-- Settles O24: LINEAR mode raises no fault, and each fault of a flow action names its instruction. -/
theorem onlyFlowInstructionsFault : Obligations.OnlyFlowInstructionsFault := by
  unfold Obligations.OnlyFlowInstructionsFault
  intro i s t hr hexec hfault
  obtain rfl := Host.Outcome.next.inj ((exec_eq i s).symm.trans hexec)
  cases hm : s.cfg.mode with
  | linear =>
    rw [retire_linear hm] at hfault
    exact absurd hfault (linearAct_status_ne_fault i hr)
  | flow =>
    rw [retire_flow hm] at hfault ⊢
    refine ⟨rfl, ?_⟩
    rcases flowAct_fault_cases hfault hr with
      ⟨c, off, disp, rfl, -, h⟩ | ⟨bw, d, rfl, -, h⟩ | ⟨bw, d, rfl, -, -, h⟩ |
      ⟨bw, _, _, _, rfl, -, -, -, -, h⟩ | ⟨bw, _, _, rfl, -, -, -, h⟩ <;> rw [h]
    · exact .inl ⟨⟨c, off, disp, rfl⟩, rfl⟩
    · exact .inr (.inl ⟨⟨bw, d, rfl⟩, .inl rfl⟩)
    · exact .inr (.inl ⟨⟨bw, d, rfl⟩, .inr rfl⟩)
    · exact .inr (.inr ⟨⟨bw, rfl⟩, rfl⟩)
    · exact .inr (.inr ⟨⟨bw, rfl⟩, rfl⟩)

/-! ## Reset and launch (R46, R340) -/

/-- R46, R340: at its reset values with any words loaded, the state meets the invariant. -/
theorem inv_resetWith_loaded (cfg : Config) {n : Nat} {mem : List Host.Cell} (hwf : Memory.wf mem)
    (hin : ∀ c ∈ mem, c.1 < 2 * n) (hfits : n ≤ cfg.nmax) :
    ({ State.resetWith cfg with n := n, mem := mem } : State).Inv where
  mem_wf := hwf
  mem_in := hin
  fits := hfits
  idx_pos := le_rfl
  idx_le := Nat.le_add_left 1 n
  wu_le := Nat.zero_le 3
  wu_last := fun _ => rfl
  vis_rising := .nil
  vis_in := List.forall_mem_nil _
  vis_started := List.forall_mem_nil _
  started_vis := fun _ => List.forall_mem_nil _
  bq_le := Nat.zero_le _
  bq_even := List.forall_mem_nil _
  bq_jumps := List.forall_mem_nil _
  cs_le := Nat.zero_le _
  cs_valid := List.forall_mem_nil _
  cs_calls := List.forall_mem_nil _
  linear_empty := fun _ => ⟨rfl, rfl⟩
  cause_none := by simp [State.resetWith]
  addr_zero := fun _ => ⟨rfl, rfl⟩
  fault_at := fun _ => rfl
  ended_at := by simp [State.resetWith]
  exhausted_empty := by simp [State.resetWith]
  stopped_policy := by simp [State.resetWith]
  records_ok := List.forall_mem_nil _
  records_read := List.forall_mem_nil _

theorem inv_resetWith (cfg : Config) : (State.resetWith cfg).Inv :=
  inv_resetWith_loaded cfg (loadBytes_wf [] 0) (List.forall_mem_nil _) (Nat.zero_le _)

/-- Settles O27: the reset state is the reset values with nothing loaded. -/
theorem resetMeetsTheInvariant : Obligations.ResetMeetsTheInvariant := by
  unfold Obligations.ResetMeetsTheInvariant
  exact inv_resetWith Config.atReset

theorem inv_launch_of_even {cfg : Config} {b : List Byte} (heven : b.length % 2 = 0)
    (hfit : b.length ≤ 2 * cfg.nmax) :
    ({ State.resetWith cfg with n := b.length / 2, mem := loadBytes b 0 } : State).Inv := by
  refine inv_resetWith_loaded cfg (loadBytes_wf b 0) (fun c hc => ?_) (by omega)
  have := loadBytes_bounds c hc
  omega

/-- R316: the loader's refusal of an odd input is a fault entered at reset, at the first word. -/
theorem inv_launch_of_odd (cfg : Config) (len : Nat) :
    ({ State.resetWith cfg with
      status := .fault, cause := .malformedLength, faultInfo := (len : Int) } : State).Inv :=
  inv_raiseFault (inv_resetWith cfg) rfl (by simp)

/-- Settles O28: a launch is refused, or leaves the loader's fault, or the loaded words. -/
theorem launchMeetsTheInvariant : Obligations.LaunchMeetsTheInvariant := by
  unfold Obligations.LaunchMeetsTheInvariant
  intro cfg b s h
  by_cases hfit : b.length ≤ 2 * cfg.nmax
  · rcases Nat.mod_two_eq_zero_or_one b.length with heven | hodd
    · obtain rfl := Host.Outcome.next.inj ((launch_of_even heven hfit).symm.trans h)
      exact inv_launch_of_even heven hfit
    · obtain rfl := Host.Outcome.next.inj ((launch_of_odd hfit hodd).symm.trans h)
      exact inv_launch_of_odd cfg b.length
  · simp [(loaderRefusals cfg b).1 (by omega)] at h

/-- Settles O54: the launch writes N and the word memory alone over the reset values. -/
theorem launchLeavesTheResetValues : Obligations.LaunchLeavesTheResetValues := by
  unfold Obligations.LaunchLeavesTheResetValues
  intro cfg b heven hfit
  exact ⟨_, launch_of_even heven hfit, rfl, rfl, rfl, rfl, rfl, rfl, rfl, rfl, rfl, rfl, rfl, rfl⟩

/-! ## One step (R270, R286, R320) -/

/-- Settles O4: the test for a terminal state comes first. -/
theorem terminalStatesTakeNoStep : Obligations.TerminalStatesTakeNoStep := by
  unfold Obligations.TerminalStatesTakeNoStep
  exact fun s hterm => if_pos hterm

/-- Settles O50: each of the steps answers the state it is in. -/
theorem terminalStatesPersist : Obligations.TerminalStatesPersist := by
  unfold Obligations.TerminalStatesPersist
  intro k s hterm
  induction k with
  | zero => rfl
  | succ k ih => rw [run_succ_of_next k (terminalStatesTakeNoStep s hterm), ih]

/-- R47: a cursor on no loaded word finds nothing. -/
theorem fetch_of_outside {s : State} (hout : s.idx = 0 ∨ s.n < s.idx) : fetch s = .outside := by
  rw [fetch, (fetchWindowHoldsTheNextWords s).2 hout]

/-- Settles O6: the cursor is not at the end marker, and finds no word. -/
theorem cursorOutsideTheStreamStops : Obligations.CursorOutsideTheStreamStops := by
  unfold Obligations.CursorOutsideTheStreamStops
  intro s hr hout
  have hend : s.idx ≠ s.n + 1 := by omega
  have hf : fetch s = .outside := fetch_of_outside (by omega)
  simp [step, hr, atEnd, hend, hf]

/-- R270, R312: a step in RUN that finds too few words faults with their number. -/
theorem step_of_truncated {s : State} {need : Nat} (hr : s.status = .run) (hf : fetch s = .truncated need) :
    step s = .next (raiseFault .truncated (need : Int) s) := by
  have hend : s.idx ≠ s.n + 1 := by
    intro hend
    rw [fetch_of_outside (by omega)] at hf
    cases hf
  simp [step, hr, atEnd, hend, hf]

/-- Settles O5: the fetch answers the truncation of the pipeline. -/
theorem truncationRaisesTheFault : Obligations.TruncationRaisesTheFault := by
  unfold Obligations.TruncationRaisesTheFault
  intro s w0 exts need hr hw hres
  have hf : fetch s = .truncated need := by simp [fetch, hw, hres]
  rw [step_of_truncated hr hf]
  rfl

/-! ## What a step does not see (R46, R47, R273) -/

/-- A change of the state that `g` makes and a step from `s` does not see: what decides the step is unchanged, and each
thing the step can do leads to the changed state. -/
structure Unseen (g : State → State) (s : State) : Prop where
  status : (g s).status = s.status
  idx : (g s).idx = s.idx
  n : (g s).n = s.n
  fetch : fetch (g s) = fetch s
  stop : stop .endOfStream (g s) = g (stop .endOfStream s)
  raiseFault : ∀ need : Nat, raiseFault .truncated need (g s) = g (raiseFault .truncated need s)
  retire : ∀ fin words,
    retire fin (flowAct fin) (consume words (g s)) = g (retire fin (flowAct fin) (consume words s))

/-- Whichever way the step goes, it goes the same way from the changed state. -/
theorem Unseen.step {g : State → State} {s t : State} (h : Unseen g s) (hstep : step s = .next t) :
    Machine.step (g s) = .next (g t) := by
  rcases step_cases hstep with ⟨hterm, rfl⟩ | ⟨hr, hend, rfl⟩ | ⟨need, hr, hf, rfl⟩ | ⟨fin, words, hr, hf, rfl⟩
  · exact terminalStatesTakeNoStep _ (h.status ▸ hterm)
  · rw [← h.stop]
    exact endOfStreamEndsTheRun _ (h.status ▸ hr) (by rw [h.idx, h.n, hend])
  · rw [← h.raiseFault]
    exact step_of_truncated (h.status ▸ hr) (h.fetch.trans hf)
  · rw [← h.retire]
    exact step_of_instr (h.status ▸ hr) (h.fetch.trans hf)

/-- The state with these reachability memories. -/
def withReach (v : List Nat) (q c : List Int) (s : State) : State := { s with vis := v, bq := q, cs := c }

/-- R273, D34: in LINEAR mode an instruction stops or moves the cursor, and both leave the reachability memories. -/
theorem unseen_withReach (v : List Nat) (q c : List Int) {s : State} (hlinear : s.cfg.mode = .linear) :
    Unseen (withReach v q c) s where
  status := rfl
  idx := rfl
  n := rfl
  fetch := rfl
  stop := rfl
  raiseFault := fun _ => rfl
  retire := fun fin words => by
    rw [retire_linear (s := consume words (withReach v q c s)) hlinear, retire_linear (s := consume words s) hlinear]
    rcases linearAct_cases fin (emit fin (consume words s)) with ⟨hfin, hhalt, h⟩ | ⟨hgoes, h⟩ <;> rw [h]
    · exact if_pos ⟨hfin, hhalt⟩
    · exact if_neg hgoes

/-- Settles O47: a LINEAR step does not see the reachability memories. -/
theorem linearIgnoresTheReachabilityMemories : Obligations.LinearIgnoresTheReachabilityMemories := by
  unfold Obligations.LinearIgnoresTheReachabilityMemories
  exact fun s t v q c hlinear hstep => (unseen_withReach v q c hlinear).step hstep

/-- The state with this word at index 0. -/
def withSentinel (w : Word) (s : State) : State := { s with sentinel := w }

section Sentinel

variable (w : Word) (s : State)

theorem resume_withSentinel (t : Int) : resume t (withSentinel w s) = withSentinel w (resume t s) := by
  rcases resume_cases t s with ⟨hvalid, h⟩ | ⟨hbad, h⟩ <;> rw [h]
  · exact resume_of_valid hvalid
  · exact resume_of_not_valid hbad

theorem jumpAct_withSentinel (t : Int) : jumpAct t (withSentinel w s) = withSentinel w (jumpAct t s) := by
  rcases jumpAct_cases t s with ⟨hroom, h⟩ | ⟨hfull, h⟩ <;> rw [h]
  · exact if_neg hroom
  · exact if_pos hfull

theorem linearAct_withSentinel (fin : Instr) :
    linearAct fin (withSentinel w s) = withSentinel w (linearAct fin s) := by
  rcases linearAct_cases fin s with ⟨hfin, hhalt, h⟩ | ⟨hgoes, h⟩ <;> rw [h]
  · exact if_pos ⟨hfin, hhalt⟩
  · exact if_neg hgoes

theorem callAct_withSentinel (ret t : Int) :
    callAct ret t (withSentinel w s) = withSentinel w (callAct ret t s) := by
  rcases callAct_cases ret t s with ⟨hroom, h⟩ | ⟨hfull, h⟩ <;> rw [h]
  · exact (if_neg hroom).trans (resume_withSentinel w (setStack (ret :: s.cs) s) t)
  · exact if_pos hfull

theorem callFlow_withSentinel (opd : Operand) :
    callFlow opd (withSentinel w s) = withSentinel w (callFlow opd s) := by
  unfold callFlow
  cases callDest opd with
  | none => rfl
  | some d => exact callAct_withSentinel w s _ _

theorem retFallback_withSentinel : retFallback (withSentinel w s) = withSentinel w (retFallback s) := by
  rcases retFallback_cases s with ⟨r, rest, hcs, h⟩ | ⟨hcs, h⟩ <;> rw [h]
  · rw [retFallback_of_cons (s := withSentinel w s) hcs]
    exact resume_withSentinel w (setStack rest s) r
  · rw [retFallback_of_nil (s := withSentinel w s) hcs]
    rfl

theorem retAct_withSentinel : retAct (withSentinel w s) = withSentinel w (retAct s) := by
  have hsame : drain (visited (withSentinel w s)) (withSentinel w s).bq = drain (visited s) s.bq := rfl
  unfold retAct
  rw [hsame]
  cases drain (visited s) s.bq with
  | none => exact retFallback_withSentinel w (setQueue [] s)
  | some p => exact resume_withSentinel w (setQueue p.2 s) p.1

theorem invalidAct_withSentinel : invalidAct (withSentinel w s) = withSentinel w (invalidAct s) := by
  rcases invalidAct_cases s with ⟨hp, h⟩ | ⟨hp, h⟩ <;> rw [h]
  · exact invalidAct_of_halt hp
  · exact invalidAct_of_skip hp

theorem flowAct_withSentinel (i : Instr) : flowAct i (withSentinel w s) = withSentinel w (flowAct i s) := by
  rcases flowAct_cases i with ⟨_, _, disp, -, h⟩ | ⟨_, opd, -, h⟩ | ⟨_, -, h⟩ | ⟨-, h⟩ | ⟨-, -, -, -, h⟩ <;> rw [h]
  · exact jumpAct_withSentinel w s _
  · exact callFlow_withSentinel w s opd
  · exact retAct_withSentinel w s
  · exact invalidAct_withSentinel w s
  · rfl

theorem retire_withSentinel (i : Instr) :
    retire i (flowAct i) (withSentinel w s) = withSentinel w (retire i (flowAct i) s) := by
  cases hm : s.cfg.mode with
  | linear =>
    rw [retire_linear (s := withSentinel w s) hm, retire_linear hm]
    exact linearAct_withSentinel w (emit i s) i
  | flow =>
    rw [retire_flow (s := withSentinel w s) hm, retire_flow hm]
    exact flowAct_withSentinel w (markVisited (emit i s)) i

/-- R47, D32: the words are read from the memory, and no action reads or writes the sentinel. -/
theorem unseen_withSentinel : Unseen (withSentinel w) s where
  status := rfl
  idx := rfl
  n := rfl
  fetch := rfl
  stop := rfl
  raiseFault := fun _ => rfl
  retire := fun fin words => retire_withSentinel w (consume words s) fin

end Sentinel

/-- Settles O48: a step does not see the sentinel. -/
theorem sentinelIsNeverRead : Obligations.SentinelIsNeverRead := by
  unfold Obligations.SentinelIsNeverRead
  exact fun s t w hstep => (unseen_withSentinel w s).step hstep

/-! ## The words of `Invalid` (30_encoding.md R110 to R114) -/

theorem decodeJump_ne_invalid {w0 : Word} {len : Nat} : decodeJump w0 ≠ .ok .invalid len := by
  simp [decodeJump]

/-- R114: a single-operand word is `Invalid` exactly when its opcode has no entry. -/
theorem decodeSingle_eq_invalid_iff {w0 : Word} {exts : List Word} {len : Nat} :
    decodeSingle w0 exts = .ok .invalid len ↔ len = 1 ∧ sopOf (field w0 7 3) = none := by
  cases hop : sopOf (field w0 7 3) with
  | none => simp [decodeSingle, hop, eq_comm]
  | some op =>
    rcases exists_ext_or_nil (singleTakesExt w0) exts with ⟨ext, more, hext, rfl⟩ | ⟨htakes, rfl⟩
    · simp [decodeSingle_of_ext hop hext more]
    · unfold singleTakesExt at htakes
      simp [decodeSingle, hop, htakes]

/-- R193: so is a double-operand word. -/
theorem decodeDouble_eq_invalid_iff {w0 : Word} {exts : List Word} {len : Nat} :
    decodeDouble w0 exts = .ok .invalid len ↔ len = 1 ∧ dopOf (field w0 12 4) = none := by
  cases hop : dopOf (field w0 12 4) with
  | none => simp [decodeDouble, hop, eq_comm]
  | some op =>
    simp only [decodeDouble, hop, reduceCtorEq, and_false, iff_false]
    split <;> simp

theorem sopOf_eq_none_iff (w : Word) : sopOf (field w 7 3) = none ↔ w.toNat / 128 % 8 = 7 := by
  have hcode : ∀ c : BitVec 3, sopOf c = none ↔ c.toNat = 7 := by decide
  rw [hcode, toNat_field]
  omega

theorem dopOf_eq_none_iff (w : Word) : dopOf (field w 12 4) = none ↔ w.toNat < 0x4000 := by
  have hcode : ∀ c : BitVec 4, dopOf c = none ↔ c.toNat < 4 := by decide
  have hw := w.isLt
  rw [hcode, toNat_field]
  omega

/-- Settles O36: the opcode without an entry, as a range of the words of each flavor. -/
theorem invalidExactlyInThreeRanges : Obligations.InvalidExactlyInThreeRanges := by
  unfold Obligations.InvalidExactlyInThreeRanges
  intro w0 exts len
  obtain ⟨hsingle, hjump, hdouble⟩ := flavorsAreWordRanges w0
  cases hf : flavor w0 with
  | jump =>
    have hrange := hjump.mp hf
    rw [decode_of_jump _ hf, iff_false_left decodeJump_ne_invalid]
    omega
  | single =>
    have hrange := hsingle.mp hf
    rw [decode_of_single _ hf, decodeSingle_eq_invalid_iff, sopOf_eq_none_iff]
    omega
  | double =>
    have hrange := hdouble.mp hf
    rw [decode_of_double _ hf, decodeDouble_eq_invalid_iff, dopOf_eq_none_iff]
    omega

/-! ## The rows of MOV, ADD, ADDC, CMP and SUB (44_pseudo.md R234 to R238, R247 to R251) -/

/-- Settles O43: the rows before one exclude it by the register or the mode of its source, and BR's row says so. -/
theorem movIdiomRows : Obligations.MovIdiomRows := by
  unfold Obligations.MovIdiomRows
  intro bw src dst p
  change recognizeMov bw src dst = some p ↔ _
  constructor
  · intro h
    unfold recognizeMov at h
    split_ifs at h with hclr hnop hret hpop hbr <;> cases h
    · exact .inl ⟨srcImm_iff_immediate.mp hclr, rfl⟩
    · obtain ⟨hsame, hsrc, hdst⟩ := hnop
      exact .inr (.inl ⟨hsame, hsrc, hdst, rfl⟩)
    · obtain ⟨⟨hreg, hmode⟩, hpc⟩ := hret
      exact .inr (.inr (.inl ⟨hreg, hmode, hpc, rfl⟩))
    · obtain ⟨⟨hreg, hmode⟩, hpc⟩ := hpop
      exact .inr (.inr (.inr (.inl ⟨hreg, hmode, hpc, rfl⟩)))
    · obtain ⟨hpc, hdst⟩ := hbr
      have hnopc : ¬ (src.reg = 0 ∧ src.mode = .direct) := fun ⟨hreg, hmode⟩ =>
        hnop ⟨hreg.trans hpc.symm, hmode, hdst⟩
      have hnosp : ¬ (src.reg = 1 ∧ src.mode = .autoinc) := fun hpop => hret ⟨hpop, hpc⟩
      exact .inr (.inr (.inr (.inr ⟨hpc, hdst, mt srcImm_iff_immediate.mpr hclr, hnopc, hnosp, rfl⟩)))
  · rintro (⟨hclr, rfl⟩ | ⟨hsame, hsrc, hdst, rfl⟩ | ⟨hreg, hmode, hpc, rfl⟩ | ⟨hreg, hmode, hpc, rfl⟩ |
      ⟨hpc, hdst, hclr, hnopc, hnosp, rfl⟩)
    · exact if_pos (srcImm_iff_immediate.mpr hclr)
    · simp [recognizeMov, hsame, hsrc, hdst]
    · simp [recognizeMov, SrcImm, SrcPop, hreg, hmode, hpc]
    · have hother : ¬ dst.reg = 0#4 := hpc
      simp [recognizeMov, SrcImm, SrcPop, hreg, hmode, hother]
    · rw [recognizeMov, if_neg (mt srcImm_iff_immediate.mp hclr), if_neg, if_neg, if_neg, if_pos ⟨hpc, hdst⟩]
      · exact fun hpop => hnosp hpop.1
      · exact fun hpop => hnosp hpop.1
      · exact fun hnop => hnopc ⟨hnop.1.trans hpc, hnop.2.1⟩

/-- An opcode with one row: the condition selects the idiom, and nothing else is answered. -/
theorem oneRow_eq_some {c : Prop} [Decidable c] {q p : Instr} :
    (if c then some q else none) = some p ↔ c ∧ p = q :=
  Option.ite_some_none_eq_some.trans (and_congr_right' eq_comm)

/-- R247, R251: INC comes after RLA, and the source of INC has register 0. -/
theorem recognizeAdd_eq_some {bw : Bit} {src dst : Operand} {p : Instr} :
    recognizeAdd bw src dst = some p ↔
      (src.reg = dst.reg ∧ p = .rla bw dst) ∨ (Immediate 1 src ∧ dst.reg ≠ 0 ∧ p = .inc bw dst) := by
  constructor
  · intro h
    unfold recognizeAdd at h
    split_ifs at h with hrla hinc <;> cases h
    · exact .inl ⟨hrla, rfl⟩
    · have hpc : dst.reg ≠ 0 := fun hpc => hrla (hinc.1.trans hpc.symm)
      exact .inr ⟨srcImm_iff_immediate.mp hinc, hpc, rfl⟩
  · rintro (⟨hrla, rfl⟩ | ⟨⟨hreg, hrest⟩, hpc, rfl⟩)
    · exact if_pos hrla
    · have hother : src.reg ≠ dst.reg := fun hrla => hpc (hrla.symm.trans hreg)
      exact (if_neg hother).trans (if_pos (srcImm_iff_immediate.mpr ⟨hreg, hrest⟩))

/-- Settles O45: each opcode's rows, and none for another opcode or another format. -/
theorem arithmeticIdiomRows : Obligations.ArithmeticIdiomRows := by
  unfold Obligations.ArithmeticIdiomRows
  intro bw src dst p
  refine ⟨recognizeAdd_eq_some, oneRow_eq_some, ?_, ?_, fun op hop => ?_,
    fun i => recognize_of_asDouble_none⟩
  · rw [← srcImm_iff_immediate]
    exact oneRow_eq_some
  · rw [← srcImm_iff_immediate]
    exact oneRow_eq_some
  · cases op with
    | mov | bic | bis | add | addc | cmp | sub => simp
    | subc | dadd | bit | xor | and => exact absurd rfl hop

/-! ## What a match carries (44_pseudo.md R253, R254) -/

/-- `p` is a pseudo value that a row may answer: of an opcode some row has, with this size flag, and with no operand, the
destination, or for BR the source. -/
def Matched (bw : Bit) (src dst : Operand) (p : Instr) : Prop :=
  ∃ code o, asPseudo p = some (code, bw, o) ∧
    popCode code ∉ [13, 14, 18, 20, 21, 22, 23] ∧ (o = none ∨ o = some dst ∨ (code = .br ∧ o = some src))

section Match

variable {bw : Bit} {src dst : Operand} {p : Instr} {code : POp}

theorem matched_of_bare (h : asPseudo p = some (code, bw, none))
    (hcode : popCode code ∉ [13, 14, 18, 20, 21, 22, 23]) : Matched bw src dst p :=
  ⟨code, none, h, hcode, .inl rfl⟩

theorem matched_of_dst (h : asPseudo p = some (code, bw, some dst))
    (hcode : popCode code ∉ [13, 14, 18, 20, 21, 22, 23]) : Matched bw src dst p :=
  ⟨code, some dst, h, hcode, .inr (.inl rfl)⟩

theorem matched_br : Matched bw src dst (.br bw src) :=
  ⟨.br, some src, rfl, by decide, .inr (.inr ⟨rfl, rfl⟩)⟩

theorem matched_of_mov (h : recognize (.mov bw src dst) = some p) : Matched bw src dst p := by
  rcases (movIdiomRows bw src dst p).mp h with ⟨-, rfl⟩ | ⟨-, -, -, rfl⟩ | ⟨-, -, -, rfl⟩ | ⟨-, -, -, rfl⟩ |
    ⟨-, -, -, -, -, rfl⟩
  · exact matched_of_dst (code := .clr) rfl (by decide)
  · exact matched_of_bare (code := .nop) rfl (by decide)
  · exact matched_of_bare (code := .ret) rfl (by decide)
  · exact matched_of_dst (code := .pop) rfl (by decide)
  · exact matched_br

theorem matched_of_bic (h : recognize (.bic bw src dst) = some p) : Matched bw src dst p := by
  obtain ⟨-, ⟨-, rfl⟩ | ⟨-, rfl⟩ | ⟨-, rfl⟩ | ⟨-, rfl⟩⟩ := (flagIdiomRows bw src dst p).1.mp h
  · exact matched_of_bare (code := .clrc) rfl (by decide)
  · exact matched_of_bare (code := .clrz) rfl (by decide)
  · exact matched_of_bare (code := .clrn) rfl (by decide)
  · exact matched_of_bare (code := .dint) rfl (by decide)

theorem matched_of_bis (h : recognize (.bis bw src dst) = some p) : Matched bw src dst p := by
  obtain ⟨-, ⟨-, rfl⟩ | ⟨-, rfl⟩ | ⟨-, rfl⟩ | ⟨-, rfl⟩⟩ := (flagIdiomRows bw src dst p).2.mp h
  · exact matched_of_bare (code := .setc) rfl (by decide)
  · exact matched_of_bare (code := .setz) rfl (by decide)
  · exact matched_of_bare (code := .setn) rfl (by decide)
  · exact matched_of_bare (code := .eint) rfl (by decide)

end Match

/-- Settles O46: the rows, opcode by opcode, with what each answers. -/
theorem sevenPseudoOpcodesAreNeverProduced : Obligations.SevenPseudoOpcodesAreNeverProduced := by
  unfold Obligations.SevenPseudoOpcodesAreNeverProduced
  intro op bw src dst p h
  change Matched bw src dst p
  obtain ⟨hadd, haddc, hcmp, hsub, -, -⟩ := arithmeticIdiomRows bw src dst p
  cases op with
  | mov => exact matched_of_mov h
  | bic => exact matched_of_bic h
  | bis => exact matched_of_bis h
  | add =>
    obtain ⟨-, rfl⟩ | ⟨-, -, rfl⟩ := hadd.mp h
    · exact matched_of_dst (code := .rla) rfl (by decide)
    · exact matched_of_dst (code := .inc) rfl (by decide)
  | addc =>
    obtain ⟨-, rfl⟩ := haddc.mp h
    exact matched_of_dst (code := .rla) rfl (by decide)
  | cmp =>
    obtain ⟨-, rfl⟩ := hcmp.mp h
    exact matched_of_dst (code := .tst) rfl (by decide)
  | sub =>
    obtain ⟨-, rfl⟩ := hsub.mp h
    exact matched_of_dst (code := .dec) rfl (by decide)
  | subc | dadd | bit | xor | and => cases h

end Sys2Proof.Machine
end
